-- ==== Sys2Proof/Word.lean ====
section
/-! DEFINITION. The block's word types (`00_scope.md` R7, R12; widths by decision D5). -/

namespace Sys2Proof

/-- One channel intensity, 0..255 (R21). -/
abbrev Byte := BitVec 8

/-- One Duty-Cycle Value, `DUTY_W` = 16 bits (R7, D5). -/
abbrev Duty := BitVec 16

/-- One word on the command port (R80). -/
abbrev CmdWord := BitVec 48

/-- One entry of the Colour Store, in the stored order red, green, blue (R21). -/
structure Colour where
  r : Byte
  g : Byte
  b : Byte
deriving DecidableEq, Repr

/-- "off", the initial colour of every LED (R21). -/
def Colour.off : Colour := { r := 0, g := 0, b := 0 }

end Sys2Proof
end

