-- ==== Sys2Proof/Config.lean ====
section
/-! DEFINITION. The build-time parameters of `00_scope.md` R7 and the two views of R11.
They are arguments of the whole machine (R6, R37): State carries one `Config`, which no step writes [log 1]. -/

namespace Sys2Proof

/-- The two views of the machine (R11). In the open view the read port is left out and a test bench feeds the events. -/
inductive View where
  | closedView
  | openView
deriving DecidableEq, Repr

/-- `BITS_PER_COLOR` (R7). -/
def bitsPerColor : Nat := 8

/-- `COLORS_PER_LED` (R7). -/
def colorsPerLed : Nat := 3

/-- `BITS_PER_LED` (R7). -/
def bitsPerLed : Nat := bitsPerColor * colorsPerLed

/-- `DUTY_IDLE`, the idle level (R7, R87). -/
def dutyIdle : Duty := 0

/-- The open parameters of R7, one value each for the whole life of a machine. -/
structure Config where
  /-- `LED_COUNT`, written N. -/
  ledCount : Nat
  /-- `BATCH`, written B: LEDs encoded by one refill. -/
  batch : Nat
  /-- `PERIOD`, timer counts in one bit period; read by the configuration checks only (R8, D6). -/
  period : Nat
  /-- `DUTY_HIGH`. -/
  dutyHigh : Duty
  /-- `DUTY_LOW`. -/
  dutyLow : Duty
  /-- `RESET_IRQ_THRESHOLD`, written T (D7). -/
  resetIrqThreshold : Nat
  /-- `RESET_GAP_MIN`, counted here in bit periods; no rule reads it (D8), only the reading of R9 below [log 13]. -/
  resetGapMin : Nat
  /-- Which view of the machine this is (R11) [log 7]. -/
  view : View
deriving DecidableEq, Repr

/-- `HALF_LEN` = 24 × B (R7). -/
def Config.halfLen (c : Config) : Nat := bitsPerLed * c.batch

/-- `BUF_LEN`, written L = 2 × 24 × B (R7). -/
def Config.bufLen (c : Config) : Nat := 2 * bitsPerLed * c.batch

/-- The reading of the threshold that R9 offers and does not require: the idle duration in intervals, rounded up, at least 1. -/
def Config.thresholdReading (c : Config) : Nat :=
  max 1 ((c.resetGapMin + c.halfLen - 1) / c.halfLen)

/-- The configuration that the machine named `State.reset` has.
DESIGN CHOICE [log 1]: N, B, T of program P2 of `95_test_vectors.md`, the illustrative duty values of D23, the closed view. -/
def Config.sample : Config :=
  { ledCount := 6, batch := 2, period := 100, dutyHigh := 70, dutyLow := 35,
    resetIrqThreshold := 2, resetGapMin := 96, view := .closedView }

end Sys2Proof
end

