-- ==== Sys2Proof/Syntax.lean ====
section
/-! DEFINITION. The operations of the block, one constructor per row of `opcode_table.json`, and the words of its three formats
(`30_encoding.md` R80). -/

namespace Sys2Proof

/-- The two transfer events (R15, R84). -/
inductive Event where
  | ht
  | tc
deriving DecidableEq, Repr

/-- The nine operations (R2, R82, R84, R85). Fields an operation does not use are no part of it (R83). -/
inductive Instr where
  /-- `INIT ch` (R160). -/
  | init (ch : BitVec 16)
  /-- `SET_COLOR idx, r, g, b` (R110). -/
  | setColor (idx : BitVec 16) (r g b : Byte)
  /-- `SET_ALL r, g, b` (R111). -/
  | setAll (r g b : Byte)
  /-- `ALL_OFF` (R112). -/
  | allOff
  /-- `UPDATE` (R162). -/
  | update
  /-- `GET_COLOR idx` (R113). -/
  | getColor (idx : BitVec 16)
  /-- `ON_HT` (R147). -/
  | onHt
  /-- `ON_TC` (R148). -/
  | onTc
  /-- `RD_TICK` (R175). -/
  | rdTick
deriving DecidableEq, Repr

/-- A word as it stands on the port that carries it: the three formats CMD, EVT and STROBE of R80. -/
inductive OpWord where
  /-- A 48-bit word on the command port (R81). -/
  | cmd (w : CmdWord)
  /-- The bit `e` of a transfer event (R84). -/
  | evt (e : BitVec 1)
  /-- The level of `bit_tick` (R85). -/
  | strobe (t : BitVec 1)
deriving DecidableEq, Repr

end Sys2Proof
end

