-- ==== Sys2Proof/WellFormed.lean ====
section
/-! DEFINITION. What a well-formed configuration and a well-formed word are.
The operands of `Instr` are bit vectors of exactly the width of their field (R81), so every `Instr` is well formed by its type;
what can be ill formed is a word (a reserved op code, a strobe that is 0) and a configuration (R7, R8). -/

namespace Sys2Proof

/-- R7: `1 ≤ N ≤ 65536`. -/
def Config.ledCountOk (c : Config) : Bool := decide (1 ≤ c.ledCount ∧ c.ledCount ≤ 65536)

/-- R7: `B ≥ 1`. -/
def Config.batchOk (c : Config) : Bool := decide (1 ≤ c.batch)

/-- R7: `PERIOD ≥ 3`. -/
def Config.periodOk (c : Config) : Bool := decide (3 ≤ c.period)

/-- R8 (a): `0 < DUTY_LOW < DUTY_HIGH ≤ PERIOD`; the bound `2^DUTY_W` is the type's. -/
def Config.dutyOk (c : Config) : Bool :=
  decide (0 < c.dutyLow.toNat ∧ c.dutyLow.toNat < c.dutyHigh.toNat ∧ c.dutyHigh.toNat ≤ c.period)

/-- R8 (e): `T ≥ 1`. -/
def Config.thresholdOk (c : Config) : Bool := decide (1 ≤ c.resetIrqThreshold)

/-- The ranges a configuration must meet and nothing checks at run time (R7, R8 (a), (e)). -/
def Config.wellFormed (c : Config) : Bool :=
  c.ledCountOk && c.batchOk && c.periodOk && c.dutyOk && c.thresholdOk

/-- R8 (c): `LED_COUNT mod BATCH = 0`, which `INIT` checks. -/
def Config.multipleOk (c : Config) : Bool := decide (c.ledCount % c.batch = 0)

/-- R8 (d): `LED_COUNT ≥ 3 × BATCH`, which nothing checks; a smaller multiple faults at run time (R226). -/
def Config.threeBatchesOk (c : Config) : Bool := decide (3 * c.batch ≤ c.ledCount)

/-- A configuration whose transmissions meet the refill precondition (R133): well formed, a multiple, at least three batches. -/
def Config.transmits (c : Config) : Bool := c.wellFormed && c.multipleOk && c.threeBatchesOk

/-- R82, R90: the op codes that name a command. -/
def opCodeNames (op : Byte) : Bool := decide (0x01#8 ≤ op ∧ op ≤ 0x06#8)

/-- A word that names an operation: a command word with a named op code (R82), any event bit (R84), a raised strobe (R85). -/
def OpWord.wellFormed (w : OpWord) : Bool :=
  match w with
  | .cmd w => opCodeNames (w.extractLsb' 40 8)
  | .evt _ => true
  | .strobe t => t == 1#1

end Sys2Proof
end

