-- ==== Sys2Proof/Decode.lean ====
section
/-! DEFINITION. Decoding and encoding (`30_encoding.md`). -/

namespace Sys2Proof

/-- The field `op`, `W[47:40]` (R81). -/
def opField (w : CmdWord) : Byte := w.extractLsb' 40 8

/-- The field `idx`, `W[39:24]` (R81). -/
def idxField (w : CmdWord) : BitVec 16 := w.extractLsb' 24 16

/-- The field `r`, `W[23:16]` (R81). -/
def rField (w : CmdWord) : Byte := w.extractLsb' 16 8

/-- The field `g`, `W[15:8]` (R81). -/
def gField (w : CmdWord) : Byte := w.extractLsb' 8 8

/-- The field `b`, `W[7:0]` (R81). -/
def bField (w : CmdWord) : Byte := w.extractLsb' 0 8

/-- Why a word names no operation. -/
inductive DecodeError where
  /-- A reserved op code (R90): the block answers `ILLEGAL_OP`. -/
  | reservedOp (op : Byte)
  /-- `bit_tick` is 0: nothing happens (R85). -/
  | noTick
deriving DecidableEq, Repr

/-- R82: a decoder looks at `op` alone, and fields that the operation does not use are ignored (R83). -/
def decodeCmd (w : CmdWord) : Except DecodeError Instr :=
  if opField w = 0x01#8 then .ok (.init (idxField w))
  else if opField w = 0x02#8 then .ok (.setColor (idxField w) (rField w) (gField w) (bField w))
  else if opField w = 0x03#8 then .ok (.setAll (rField w) (gField w) (bField w))
  else if opField w = 0x04#8 then .ok .allOff
  else if opField w = 0x05#8 then .ok .update
  else if opField w = 0x06#8 then .ok (.getColor (idxField w))
  else .error (.reservedOp (opField w))

/-- R84: `e` is 0 for `ON_HT` and 1 for `ON_TC`. -/
def decodeEvt (e : BitVec 1) : Instr := if e = 0#1 then .onHt else .onTc

/-- Total decoding of a word on its port (R80). -/
def decode (w : OpWord) : Except DecodeError Instr :=
  match w with
  | .cmd w => decodeCmd w
  | .evt e => .ok (decodeEvt e)
  | .strobe t => if t = 1#1 then .ok .rdTick else .error .noTick

/-- The command word with the given fields, bit 47 first (R81). -/
def packCmd (op : Byte) (idx : BitVec 16) (r g b : Byte) : CmdWord := op ++ idx ++ r ++ g ++ b

/-- The event bit of an event (R84). -/
def eventBit (e : Event) : BitVec 1 :=
  match e with
  | .ht => 0#1
  | .tc => 1#1

/-- The word of an operation, its unused fields zero (R82, R84, R85, R91). -/
def encode (i : Instr) : OpWord :=
  match i with
  | .init ch => .cmd (packCmd 0x01 ch 0 0 0)
  | .setColor idx r g b => .cmd (packCmd 0x02 idx r g b)
  | .setAll r g b => .cmd (packCmd 0x03 0 r g b)
  | .allOff => .cmd (packCmd 0x04 0 0 0 0)
  | .update => .cmd (packCmd 0x05 0 0 0 0)
  | .getColor idx => .cmd (packCmd 0x06 idx 0 0 0)
  | .onHt => .evt (eventBit .ht)
  | .onTc => .evt (eventBit .tc)
  | .rdTick => .strobe 1

/-- The three formats of R80. -/
inductive Format where
  | cmd
  | evt
  | strobe
deriving DecidableEq, Repr

/-- One row of `opcode_table.json`: the bits under `mask` are those of `pattern`. -/
structure OpcodeRow where
  mnemonic : String
  format : Format
  pattern : Nat
  mask : Nat
deriving DecidableEq, Repr

/-- The opcode table (R82, R84, R85). -/
def opcodeRows : List OpcodeRow :=
  [ { mnemonic := "INIT", format := .cmd, pattern := 0x010000000000, mask := 0xFF0000000000 },
    { mnemonic := "SET_COLOR", format := .cmd, pattern := 0x020000000000, mask := 0xFF0000000000 },
    { mnemonic := "SET_ALL", format := .cmd, pattern := 0x030000000000, mask := 0xFF0000000000 },
    { mnemonic := "ALL_OFF", format := .cmd, pattern := 0x040000000000, mask := 0xFF0000000000 },
    { mnemonic := "UPDATE", format := .cmd, pattern := 0x050000000000, mask := 0xFF0000000000 },
    { mnemonic := "GET_COLOR", format := .cmd, pattern := 0x060000000000, mask := 0xFF0000000000 },
    { mnemonic := "ON_HT", format := .evt, pattern := 0, mask := 1 },
    { mnemonic := "ON_TC", format := .evt, pattern := 1, mask := 1 },
    { mnemonic := "RD_TICK", format := .strobe, pattern := 1, mask := 1 } ]

/-- The format of a word and its bits as a number, bit 0 the least significant. -/
def OpWord.bits (w : OpWord) : Format × Nat :=
  match w with
  | .cmd w => (.cmd, w.toNat)
  | .evt e => (.evt, e.toNat)
  | .strobe t => (.strobe, t.toNat)

/-- The word `w` is one of the row's. -/
def OpcodeRow.holds (row : OpcodeRow) (w : OpWord) : Bool :=
  decide (row.format = w.bits.1 ∧ w.bits.2 &&& row.mask = row.pattern)

/-- The word that `opcode_table.json`'s numbering gives: 48 bits for a command, one byte for an event.
The one-bit words of the EVT and STROBE formats are the same bits and only the port tells them apart; a one-byte word is read as
an event [log 10, DESIGN CHOICE]. -/
def tableWord (nbits w : Nat) : Option OpWord :=
  if nbits ≤ 8 then
    if w < 2 then some (.evt (BitVec.ofNat 1 w)) else none
  else
    if w < 2 ^ 48 then some (.cmd (BitVec.ofNat 48 w)) else none

/-- The instruction that the decoder reads from a word numbered as `opcode_table.json` numbers it. -/
def decodeTableWord (nbits w : Nat) : Option Instr :=
  match tableWord nbits w with
  | none => none
  | some word =>
    match decode word with
    | .ok i => some i
    | .error _ => none

end Sys2Proof
end

