-- ==== Sys2Proof/Machine/State.lean ====
section
/-! DEFINITION. The state of the block (`10_state.md` R20), its reset value (R38), and the reasons a step can stop. -/

namespace Sys2Proof.Machine

/-- Why the machine stops. The block's own fault is no stop: it is the sticky latch in State (R190). -/
inductive Fault where
  /-- Raised by `RD_TICK` when the entry at the read cursor holds no value (R38, D18). Safe: no run from reset in the closed view
  meets it, since `UPDATE` writes every entry before it starts the stream [log 2]. -/
  | unwrittenEntry (p : Nat)
  /-- Raised by `RD_TICK` when the read cursor is not an entry of the buffer (R31). Safe: no step makes such a cursor [log 3]. -/
  | noSuchEntry (p : Nat)
deriving DecidableEq, Repr

/-- Why an operation has no meaning. -/
inductive Refusal where
  /-- Raised by `exec` for an operation that the model gives no meaning; no arm of this model does. Safe. -/
  | notModelled (mnemonic : String)
deriving DecidableEq, Repr

/-- The response codes (R86). -/
inductive Status where
  | ok
  | outOfRange
  | configError
  | notInit
  | alreadyInit
  | illegalOp
deriving DecidableEq, Repr

/-- The causes that the fault latch records (R34). -/
inductive FaultCause where
  | none
  | contractViolation
  | overrun
deriving DecidableEq, Repr

/-- The two halves of the Transmission Buffer (R23). -/
inductive Half where
  | first
  | second
deriving DecidableEq, Repr

/-- A `SET_ALL` or `ALL_OFF` between two of its N steps: the colour it writes and the next LED (R58, R111) [log 6]. -/
structure Bulk where
  colour : Colour
  next : Nat
deriving DecidableEq, Repr

/-- What the outside does at one step, or which agent moves (R10, R37) [log 4]. -/
inductive Input where
  /-- A word on one of the three ports (R80). -/
  | port (w : OpWord)
  /-- The TASK agent goes on with the bulk command in progress. -/
  | task
  /-- The IRQ agent takes the pending event, if there is one (closed view, R84). -/
  | irq
  /-- The hardware reset input (R215). -/
  | reset
deriving DecidableEq, Repr

/-- The two memories of R50, each a list of index and value pairs, indexes strictly rising [log 2].
An LED that is not listed is off (R38), so no listed colour is off; a buffer entry that is not listed holds no value (R38, D18). -/
structure Memory where
  /-- The Colour Store (R21). -/
  color : List (Nat × Colour)
  /-- The Transmission Buffer (R23). -/
  buf : List (Nat × Duty)
deriving DecidableEq, Repr

/-- The whole state: the rows of R20, then the model's own fields. -/
@[ext]
structure State where
  /-- The build-time parameters (R7, R37); no step writes them [log 1]. -/
  cfg : Config
  /-- `color` and `buf`. -/
  mem : Memory
  /-- The Progress Counter (R24). -/
  prog : Nat
  /-- The Operation Flags (R26). -/
  opFlags : BitVec 3
  /-- The Reset Interrupt Counter (R28). -/
  rstCnt : Nat
  /-- R30. -/
  initDone : Bool
  /-- R30. -/
  channel : BitVec 16
  /-- R32. -/
  dmaRun : Bool
  /-- The read cursor (R31). -/
  rdPtr : Nat
  /-- The pending event latch (R33). -/
  evtPend : Option Event
  /-- The sticky fault latch (R34). -/
  fault : Bool
  /-- R34. -/
  faultCause : FaultCause
  /-- The duty-cycle value of the current bit period (R35). -/
  outDuty : Duty
  /-- The response to the last command (R36). -/
  rspStatus : Status
  /-- The colour read by the last `GET_COLOR` (R36). -/
  rspData : BitVec 24
  /-- The bulk command in progress [log 6]. -/
  bulk : Option Bulk
  /-- What the outside does from here on, one item a step [log 4]. -/
  inputs : List Input
  /-- The trace since the last `StartStream()`, oldest value first: a record, not state of the block (R176) [log 8]. -/
  trace : List Duty
deriving DecidableEq, Repr

/-- The state after hardware reset of a machine with configuration `c` (R38). -/
def State.resetFor (c : Config) : State :=
  { cfg := c
    mem := { color := [], buf := [] }
    prog := 0
    opFlags := 0
    rstCnt := 0
    initDone := false
    channel := 0
    dmaRun := false
    rdPtr := 0
    evtPend := none
    fault := false
    faultCause := .none
    outDuty := dutyIdle
    rspStatus := .ok
    rspData := 0
    bulk := none
    inputs := []
    trace := [] }

/-- The state after reset of the machine with the sample configuration [log 1]. -/
def State.reset : State := State.resetFor Config.sample

end Sys2Proof.Machine
end

