-- ==== Sys2Proof/Machine/Flags.lean ====
section
/-! DEFINITION. The Operation Flags: reading, setting, and the four lifecycle values (`10_state.md` R26, R27; positions by D4). -/

namespace Sys2Proof.Machine

/-- `flags.UPDATING`, bit 0 (R26). -/
def updatingBit (f : BitVec 3) : Bool := f.getLsbD 0

/-- `flags.RESET_SIGNAL`, bit 1 (R26). -/
def resetSignalBit (f : BitVec 3) : Bool := f.getLsbD 1

/-- `flags.DMA_STOP`, bit 2 (R26). -/
def dmaStopBit (f : BitVec 3) : Bool := f.getLsbD 2

/-- `flags.UPDATING <- 1` (R162). -/
def withUpdating (f : BitVec 3) : BitVec 3 := f ||| 0b001#3

/-- `flags.RESET_SIGNAL <- 1` (R143). -/
def withResetSignal (f : BitVec 3) : BitVec 3 := f ||| 0b010#3

/-- `flags.DMA_STOP <- 1` (R144). -/
def withDmaStop (f : BitVec 3) : BitVec 3 := f ||| 0b100#3

/-- `IDLE` (R27). -/
def flagsIdle : BitVec 3 := 0b000#3

/-- `STREAM` (R27). -/
def flagsStream : BitVec 3 := 0b001#3

/-- `GAP` (R27). -/
def flagsGap : BitVec 3 := 0b011#3

/-- `STOPPING` (R27). -/
def flagsStopping : BitVec 3 := 0b111#3

end Sys2Proof.Machine
end

