-- ==== Sys2Proof/Machine/Operands.lean ====
section
/-! DEFINITION. Operand forms and the bit codes of the block's registers. -/

namespace Sys2Proof.Machine

/-- `idx` as the unsigned number that its 16 bits spell (R83). -/
def ledIndex (idx : BitVec 16) : Nat := idx.toNat

/-- A colour as `rsp_data` carries it, red in the top byte (R113). -/
def packRgb (c : Colour) : BitVec 24 := c.r ++ c.g ++ c.b

/-- The 24 bits of a colour in wire order, green in the top byte (R88, R120). -/
def wireWord (c : Colour) : BitVec 24 := c.g ++ c.r ++ c.b

/-- The code of a response status (R86). -/
def statusCode (x : Status) : BitVec 4 :=
  match x with
  | .ok => 0x0
  | .outOfRange => 0x1
  | .configError => 0x2
  | .notInit => 0x3
  | .alreadyInit => 0x4
  | .illegalOp => 0x5

/-- The code of a fault cause (R34). -/
def faultCauseCode (x : FaultCause) : BitVec 2 :=
  match x with
  | .none => 0
  | .contractViolation => 1
  | .overrun => 2

/-- The code of the pending event latch: NONE 0b00, HT 0b10, TC 0b11 (R33). -/
def evtPendCode (x : Option Event) : BitVec 2 :=
  match x with
  | none => 0b00
  | some .ht => 0b10
  | some .tc => 0b11

end Sys2Proof.Machine
end

