-- ==== Sys2Proof/Machine/Ops.lean ====
section
/-! DEFINITION. The shared operations: reading and writing the two memories, raising a fault and leaving it by reset,
when each agent's step is enabled, and answering a command. -/

namespace Sys2Proof.Machine

/-! ### Sparse memories -/

/-- The value listed at index `i`. -/
def tableRead {α : Type} (t : List (Nat × α)) (i : Nat) : Option α :=
  match t with
  | [] => none
  | (k, v) :: rest => if i = k then some v else tableRead rest i

/-- List the value `v` at index `i`, keeping the indexes rising. -/
def tableWrite {α : Type} (t : List (Nat × α)) (i : Nat) (v : α) : List (Nat × α) :=
  match t with
  | [] => [(i, v)]
  | (k, w) :: rest =>
    if i < k then (i, v) :: (k, w) :: rest
    else if i = k then (i, v) :: rest
    else (k, w) :: tableWrite rest i v

/-- List nothing at index `i`. -/
def tableErase {α : Type} (t : List (Nat × α)) (i : Nat) : List (Nat × α) :=
  t.filter fun e => decide (e.1 ≠ i)

/-- The indexes rise strictly, so no index is listed twice. -/
abbrev tableRising {α : Type} (t : List (Nat × α)) : Prop := t.Pairwise fun a b => a.1 < b.1

/-- The canonical form of the two memories: indexes rising and inside their address space (R50), no listed colour off. -/
abbrev Memory.wf (c : Config) (m : Memory) : Prop :=
  tableRising m.color ∧ (∀ e ∈ m.color, e.1 < c.ledCount ∧ e.2 ≠ Colour.off) ∧
  tableRising m.buf ∧ ∀ e ∈ m.buf, e.1 < c.bufLen

/-- `color[i]` (R13). An LED that is not listed is off (R38). -/
def Memory.colorAt (m : Memory) (i : Nat) : Colour := (tableRead m.color i).getD Colour.off

/-- `color[i] <- c`, all three channels at once (R13). -/
def Memory.setColor (m : Memory) (i : Nat) (c : Colour) : Memory :=
  { m with color := if c = Colour.off then tableErase m.color i else tableWrite m.color i c }

/-- `buf[p]` (R13), none where nothing has been written (R38, D18). -/
def Memory.bufAt (m : Memory) (p : Nat) : Option Duty := tableRead m.buf p

/-- `buf[p] <- d` (R13). -/
def Memory.setBuf (m : Memory) (p : Nat) (d : Duty) : Memory := { m with buf := tableWrite m.buf p d }

/-- `MemWrite(p, n, vs)`: the values `vs` to the entries from `p` on (R13). -/
def Memory.writeRun (m : Memory) (p : Nat) (vs : List Duty) : Memory :=
  match vs with
  | [] => m
  | v :: rest => Memory.writeRun (m.setBuf p v) (p + 1) rest

/-! ### Faults -/

/-- A step in the course of its statements: it goes on, or a raised fault has ended it with the writes made so far (R190). -/
inductive Flow where
  | goesOn (s : State)
  | ended (s : State)
deriving DecidableEq, Repr

/-- The statements `f` after those that led to `x`: not executed if a fault has ended the step (R190). -/
def Flow.andThen (x : Flow) (f : State → Flow) : Flow :=
  match x with
  | .goesOn s => f s
  | .ended s => .ended s

/-- The state in which the step leaves the machine. -/
def Flow.final (x : Flow) : State :=
  match x with
  | .goesOn s => s
  | .ended s => s

/-- `fault <- 1, fault_cause <- cause` (R190). -/
def latchFault (cause : FaultCause) (s : State) : State := { s with fault := true, faultCause := cause }

/-- `raise Fault(cause)`: latch it and end the step (R13, R190). -/
def raiseFault (cause : FaultCause) (s : State) : Flow := .ended (latchFault cause s)

/-- Hardware reset, the only exit from a fault, in any state (R215): every state at the value of R38.
The parameters stay; `rest` is what the outside does afterwards [log 11]. -/
def hardReset (rest : List Input) (s : State) : State := { State.resetFor s.cfg with inputs := rest }

/-! ### Which agent's step is enabled -/

/-- A command is accepted: no fault (R190) and no command in progress (R205). -/
abbrev TaskReady (s : State) : Prop := s.fault = false ∧ s.bulk = none

/-- The handling of event `e` is enabled (R147, R148): no fault, and in the closed view the event is pending. -/
abbrev EventEnabled (e : Event) (s : State) : Prop :=
  s.fault = false ∧ (s.cfg.view = .openView ∨ s.evtPend = some e)

/-- `RD_TICK` is enabled (R175): streaming is on, also while `fault = 1`. The read port is part of the closed view only (R11). -/
abbrev TickEnabled (s : State) : Prop := s.cfg.view = .closedView ∧ s.dmaRun = true

/-! ### Commands -/

/-- `return status` (R13, R36). -/
def answer (x : Status) (s : State) : State := { s with rspStatus := x }

/-- The effect `body` of a command if the command is accepted; a command that is not accepted changes nothing and gets no response
(R190, R205) [log 5]. -/
def accept (body : State → State) (s : State) : State := if TaskReady s then body s else s

end Sys2Proof.Machine
end

