-- ==== Sys2Proof/Machine/ColourStore.lean ====
section
/-! DEFINITION. The Colour Store operations (`41_colour_store.md`). -/

namespace Sys2Proof.Machine

/-- `color[i] <- c` in the state. -/
def writeColor (i : Nat) (c : Colour) (s : State) : State := { s with mem := s.mem.setColor i c }

/-- R110. -/
def setColorBody (idx : BitVec 16) (c : Colour) (s : State) : State :=
  if ledIndex idx < s.cfg.ledCount then answer .ok (writeColor (ledIndex idx) c s)
  else answer .outOfRange s

/-- R113. -/
def getColorBody (idx : BitVec 16) (s : State) : State :=
  if ledIndex idx < s.cfg.ledCount then
    answer .ok { s with rspData := packRgb (s.mem.colorAt (ledIndex idx)) }
  else answer .outOfRange s

/-- One of the N steps of a bulk command (R58, R111): LED `k.next`, and the response after the last. -/
def bulkStep (k : Bulk) (s : State) : State :=
  if k.next + 1 < s.cfg.ledCount then
    { writeColor k.next k.colour s with bulk := some { k with next := k.next + 1 } }
  else if k.next < s.cfg.ledCount then
    answer .ok { writeColor k.next k.colour s with bulk := none }
  else answer .ok { s with bulk := none }

/-- The TASK agent goes on with the bulk command in progress, if there is one and no fault (R111, R190) [log 6]. -/
def taskContinue (s : State) : State :=
  if s.fault = true then s
  else
    match s.bulk with
    | none => s
    | some k => bulkStep k s

/-- `SET_COLOR idx, r, g, b` (R110). -/
def execSetColor (idx : BitVec 16) (r g b : Byte) (s : State) : Host.Outcome State Fault Refusal :=
  .next (accept (setColorBody idx { r := r, g := g, b := b }) s)

/-- `SET_ALL r, g, b` (R111): its first step; the others are `taskContinue`. -/
def execSetAll (r g b : Byte) (s : State) : Host.Outcome State Fault Refusal :=
  .next (accept (bulkStep { colour := { r := r, g := g, b := b }, next := 0 }) s)

/-- `ALL_OFF` (R112): its first step. -/
def execAllOff (s : State) : Host.Outcome State Fault Refusal :=
  .next (accept (bulkStep { colour := Colour.off, next := 0 }) s)

/-- `GET_COLOR idx` (R113). -/
def execGetColor (idx : BitVec 16) (s : State) : Host.Outcome State Fault Refusal :=
  .next (accept (getColorBody idx) s)

end Sys2Proof.Machine
end

