-- ==== Sys2Proof/Machine/PulseEncoder.lean ====
section
/-! DEFINITION. The Pulse Encoder (`42_pulse_encoder.md`). -/

namespace Sys2Proof.Machine

/-- The symbol of one bit (R87). -/
def symbol (c : Config) (bit : Bool) : Duty := if bit then c.dutyHigh else c.dutyLow

/-- `Encode(c)`: 24 Duty-Cycle Values, position `j` the symbol of bit `23 - j` of the wire word (R88, R120).
Irreducible for elaboration only, so that comparing two states does not unfold it; its lemmas are in Laws/Ops.lean. -/
@[irreducible] def encodePulses (c : Config) (x : Colour) : List Duty :=
  (List.range bitsPerLed).map fun j => symbol c ((wireWord x).getLsbD (bitsPerLed - 1 - j))

/-- The midpoint of R125. -/
def dutyMidpoint (c : Config) : Nat := (c.dutyLow.toNat + c.dutyHigh.toNat) / 2

/-- `Decode(v)` of R125, used by claims only: a value above the midpoint is 1 (D24), the first value is bit 23.
DESIGN CHOICE [log 14]: the rule defines it on runs of 24 bit symbols only. On a run that contains the idle value 0 and on one of another
length this total function still answers a colour, 0 read as any value by the midpoint, and no operation calls it. -/
def decodePulses (c : Config) (v : List Duty) : Colour :=
  let w : BitVec 24 := v.foldl (fun w d => w.shiftConcat (decide (dutyMidpoint c < d.toNat))) 0
  { r := w.extractLsb' 8 8, g := w.extractLsb' 16 8, b := w.extractLsb' 0 8 }

end Sys2Proof.Machine
end

