-- ==== Sys2Proof/Machine/Refill.lean ====
section
/-! DEFINITION. The writers of the Transmission Buffer (`43_buffer_refill.md`). -/

namespace Sys2Proof.Machine

/-- `wr_pos(led)` (R131). -/
def wrPos (c : Config) (led : Nat) : Nat := (led * bitsPerLed) % c.bufLen

/-- Write one LED's pulses into the ring (R130). -/
def encodeLed (led : Nat) (s : State) : State :=
  { s with mem := s.mem.writeRun (wrPos s.cfg led) (encodePulses s.cfg (s.mem.colorAt led)) }

/-- The loop of R130 from LED `led` on, `count` LEDs left; it faults at the first LED that does not exist (D15). -/
def refillLoop (led count : Nat) (s : State) : Flow :=
  match count with
  | 0 => .goesOn s
  | n + 1 =>
    if led < s.cfg.ledCount then refillLoop (led + 1) n (encodeLed led s)
    else raiseFault .contractViolation s

/-- `Refill(start_led, count)` (R130, R132). -/
def refill (start count : Nat) (s : State) : Flow :=
  if start < s.cfg.ledCount ∧ count ≤ s.cfg.ledCount then refillLoop start count s
  else raiseFault .contractViolation s

/-- The first entry of a half (R134). -/
def halfBase (c : Config) (h : Half) : Nat :=
  match h with
  | .first => 0
  | .second => c.halfLen

/-- `ZeroHalf(h)` (R134). -/
def zeroHalf (h : Half) (s : State) : State :=
  { s with mem := s.mem.writeRun (halfBase s.cfg h) (List.replicate s.cfg.halfLen dutyIdle) }

end Sys2Proof.Machine
end

