-- ==== Sys2Proof/Machine/StreamPort.lean ====
section
/-! DEFINITION. The stream port (`46_stream_port.md`). -/

namespace Sys2Proof.Machine

/-- `StartStream()` (R171); a new trace begins (R176) [log 8]. -/
def startStream (s : State) : State := { s with rdPtr := 0, dmaRun := true, trace := [] }

/-- `StopStream()` (R172). -/
def stopStream (s : State) : State := { s with dmaRun := false, outDuty := dutyIdle }

/-- `RaiseEvent(e)` (R174). -/
def raiseEvent (e : Event) (s : State) : State :=
  if s.fault = true then s
  else if s.evtPend ≠ none then latchFault .overrun s
  else { s with evtPend := some e }

/-- The event that the new value of the read cursor raises (R175). -/
def boundaryEvent (s : State) : State :=
  if s.rdPtr = s.cfg.halfLen then raiseEvent .ht s
  else if s.rdPtr = 0 then raiseEvent .tc s
  else s

/-- Put `d` out, append it to the trace (R176) and advance the cursor (R175). -/
def streamOut (d : Duty) (s : State) : State :=
  { s with outDuty := d, rdPtr := (s.rdPtr + 1) % s.cfg.bufLen, trace := s.trace ++ [d] }

/-- `RD_TICK` (R175). -/
def execRdTick (s : State) : Host.Outcome State Fault Refusal :=
  if TickEnabled s then
    if s.rdPtr < s.cfg.bufLen then
      match s.mem.bufAt s.rdPtr with
      | some d => .next (boundaryEvent (streamOut d s))
      | none => .fault (.unwrittenEntry s.rdPtr)
    else .fault (.noSuchEntry s.rdPtr)
  else .next s

end Sys2Proof.Machine
end

