-- ==== Sys2Proof/Machine/StateMachine.lean ====
section
/-! DEFINITION. The Refill / Reset State Machine (`44_state_machine.md`). -/

namespace Sys2Proof.Machine

/-- `Vacated(e)` (R141). -/
def vacated (e : Event) : Half :=
  match e with
  | .ht => .first
  | .tc => .second

/-- Case 1, stop (R145). -/
def stopCase (s : State) : State :=
  { stopStream s with opFlags := flagsIdle, prog := 0, rstCnt := 0 }

/-- The increment of the Reset Interrupt Counter and the test on its new value (R144). -/
def countGap (s : State) : State :=
  if s.cfg.resetIrqThreshold ≤ s.rstCnt + 1 then
    { s with rstCnt := s.rstCnt + 1, opFlags := withDmaStop s.opFlags }
  else { s with rstCnt := s.rstCnt + 1 }

/-- Case 2, idle-gap emission (R144). -/
def gapCase (e : Event) (s : State) : State := countGap (zeroHalf (vacated e) s)

/-- The advance of the Progress Counter and the test on its new value (R143). -/
def countBatch (s : State) : State :=
  if s.cfg.ledCount ≤ s.prog + s.cfg.batch then
    { s with prog := s.prog + s.cfg.batch, opFlags := withResetSignal s.opFlags }
  else { s with prog := s.prog + s.cfg.batch }

/-- Case 3, normal streaming (R143); nothing is counted if the refill faults (R132). -/
def streamCase (s : State) : State :=
  ((refill s.prog s.cfg.batch s).andThen fun t => .goesOn (countBatch t)).final

/-- `Handle(e)` (R140), the cases in the priority of R142. -/
def handle (e : Event) (s : State) : State :=
  if dmaStopBit s.opFlags = true then stopCase s
  else if resetSignalBit s.opFlags = true then gapCase e s
  else streamCase s

/-- `evt_pend <- NONE`, in the closed view only (R147, R148). -/
def clearPending (s : State) : State :=
  if s.cfg.view = .closedView then { s with evtPend := none } else s

/-- The IRQ step for event `e` where it is enabled; where it is not, nothing happens (R147, R148, R190) [log 5]. -/
def takeEvent (e : Event) (s : State) : State :=
  if EventEnabled e s then handle e (clearPending s) else s

/-- `ON_HT` (R147). -/
def execOnHt (s : State) : Host.Outcome State Fault Refusal := .next (takeEvent .ht s)

/-- `ON_TC` (R148). -/
def execOnTc (s : State) : Host.Outcome State Fault Refusal := .next (takeEvent .tc s)

end Sys2Proof.Machine
end

