-- ==== Sys2Proof/Machine/Trigger.lean ====
section
/-! DEFINITION. `INIT` and the Update Trigger (`45_update_trigger.md`). -/

namespace Sys2Proof.Machine

/-- R160. -/
def initBody (ch : BitVec 16) (s : State) : State :=
  if s.initDone = true then answer .alreadyInit s
  else if s.cfg.bufLen % 2 ≠ 0 ∨ s.cfg.ledCount % s.cfg.batch ≠ 0 then answer .configError s
  else answer .ok { s with channel := ch, initDone := true }

/-- The statements of R162 after both refills. -/
def beginStream (s : State) : State :=
  answer .ok { startStream { s with prog := 2 * s.cfg.batch } with opFlags := withUpdating s.opFlags }

/-- R162, R163. -/
def updateBody (s : State) : State :=
  if s.initDone = false then answer .notInit s
  else if updatingBit s.opFlags = true then answer .ok s
  else
    (((refill 0 s.cfg.batch s).andThen fun t => refill t.cfg.batch t.cfg.batch t).andThen
      fun t => .goesOn (beginStream t)).final

/-- `INIT ch` (R160). -/
def execInit (ch : BitVec 16) (s : State) : Host.Outcome State Fault Refusal :=
  .next (accept (initBody ch) s)

/-- `UPDATE` (R162). -/
def execUpdate (s : State) : Host.Outcome State Fault Refusal := .next (accept updateBody s)

end Sys2Proof.Machine
end

