-- ==== Sys2Proof/Machine/Dispatch.lean ====
section
/-! DEFINITION. One arm per operation. -/

namespace Sys2Proof.Machine

def exec (i : Instr) (s : State) : Host.Outcome State Fault Refusal :=
  match i with
  | .init ch => Sys2Proof.Machine.execInit ch s
  | .setColor idx r g b => Sys2Proof.Machine.execSetColor idx r g b s
  | .setAll r g b => Sys2Proof.Machine.execSetAll r g b s
  | .allOff => Sys2Proof.Machine.execAllOff s
  | .update => Sys2Proof.Machine.execUpdate s
  | .getColor idx => Sys2Proof.Machine.execGetColor idx s
  | .onHt => Sys2Proof.Machine.execOnHt s
  | .onTc => Sys2Proof.Machine.execOnTc s
  | .rdTick => Sys2Proof.Machine.execRdTick s

end Sys2Proof.Machine
end

