-- ==== Sys2Proof/Machine/Fetch.lean ====
section
/-! DEFINITION. What the next step is: the head of `inputs` picks an agent or puts a word on a port (`00_scope.md` R10, R37) [log 4]. -/

namespace Sys2Proof.Machine

/-- What a step does: it runs an operation, or it is already done. -/
inductive Fetched where
  | operation (i : Instr) (s : State)
  | done (s : State)
deriving DecidableEq, Repr

/-- A reserved op code answers `ILLEGAL_OP` and changes no other state (R90), where a command is accepted at all (R190). -/
def illegalOp (s : State) : State := accept (answer .illegalOp) s

/-- The word `w` on its port: the operation it names, or what a word that names none does (R85, R90). -/
def fetchWord (w : OpWord) (s : State) : Fetched :=
  match decode w with
  | .ok i => .operation i s
  | .error (.reservedOp _) => .done (illegalOp s)
  | .error .noTick => .done s

/-- In the closed view the operation exists when `evt_pend[1] = 1` and its bit is `evt_pend[0]` (R84). -/
def pendingWord (s : State) : Option OpWord :=
  if s.cfg.view = .closedView ∧ (evtPendCode s.evtPend).getLsbD 1 = true then
    some (.evt ((evtPendCode s.evtPend).extractLsb' 0 1))
  else none

/-- A command word waits while a command is in progress, since it is presented only after the response to the previous one (R205);
after a fault no response will come and no command is accepted (R190) [log 6]. -/
def heldBack (w : OpWord) (s : State) : Bool :=
  match w with
  | .cmd _ => s.bulk.isSome && !s.fault
  | .evt _ => false
  | .strobe _ => false

/-- The next step [log 4]. With no input left nothing moves. -/
def fetch (s : State) : Fetched :=
  match s.inputs with
  | [] => .done s
  | .reset :: rest => .done (hardReset rest s)
  | .task :: rest => .done (taskContinue { s with inputs := rest })
  | .irq :: rest =>
    match pendingWord s with
    | some w => fetchWord w { s with inputs := rest }
    | none => .done { s with inputs := rest }
  | .port w :: rest =>
    if heldBack w s = true then .done (taskContinue s)
    else fetchWord w { s with inputs := rest }

/-- Put `w` on its port as the next input, with no command in progress that would hold it back. -/
def presentWord (w : OpWord) (s : State) : State :=
  { s with inputs := .port w :: s.inputs, bulk := none }

end Sys2Proof.Machine
end

