-- ==== Sys2Proof/Machine/Step.lean ====
section
/-! DEFINITION. One step of the machine. -/

namespace Sys2Proof.Machine

/-- One step of one agent (R10, R14). -/
def step (s : State) : Host.Outcome State Fault Refusal :=
  match fetch s with
  | .operation i t => exec i t
  | .done t => .next t

/-- `s` with the word of `opcode_table.json`'s numbering as the next input [log 4]; a word of no format changes nothing. -/
def State.withFetchWord (s : State) (nbits w : Nat) : State :=
  match tableWord nbits w with
  | some word => presentWord word s
  | none => s

end Sys2Proof.Machine
end

