-- ==== Sys2Proof/Machine/Ports.lean ====
section
/-! DEFINITION. What the block shows outside: the stream port (`46_stream_port.md` R173), the response registers (R36) and the
read-only status outputs (`60_exceptions.md` R204), each with its width. -/

namespace Sys2Proof.Machine

/-- The outputs of the block, sampled between steps. -/
structure Ports where
  outDuty : Duty
  dmaRun : Bool
  strmChannel : BitVec 16
  irqHt : Bool
  irqTc : Bool
  rspStatus : BitVec 4
  rspData : BitVec 24
  opFlags : BitVec 3
  prog : Nat
  rstCnt : Nat
  initDone : Bool
  fault : Bool
  faultCause : BitVec 2
deriving DecidableEq, Repr

/-- The outputs in a state; reading them changes nothing (R204). -/
def State.ports (s : State) : Ports :=
  { outDuty := s.outDuty
    dmaRun := s.dmaRun
    strmChannel := s.channel
    irqHt := decide (evtPendCode s.evtPend = 0b10#2)
    irqTc := decide (evtPendCode s.evtPend = 0b11#2)
    rspStatus := statusCode s.rspStatus
    rspData := s.rspData
    opFlags := s.opFlags
    prog := s.prog
    rstCnt := s.rstCnt
    initDone := s.initDone
    fault := s.fault
    faultCause := faultCauseCode s.faultCause }

end Sys2Proof.Machine
end

