-- ==== Sys2Proof/Safety.lean ====
section
/-! DEFINITION. What a good state and a good run are, in the terms the statements use (`10_state.md` R39, `46_stream_port.md` R176 to
R178). -/

namespace Sys2Proof.Machine

/-- The operation that handles an event (R147, R148). -/
def eventInstr (e : Event) : Instr :=
  match e with
  | .ht => .onHt
  | .tc => .onTc

/-- The six operations of the task context (R2, R80). -/
def isCommand (i : Instr) : Bool :=
  match i with
  | .init _ => true
  | .setColor _ _ _ _ => true
  | .setAll _ _ _ => true
  | .allOff => true
  | .update => true
  | .getColor _ => true
  | .onHt => false
  | .onTc => false
  | .rdTick => false

/-- The operations that write the Colour Store (R22). -/
def writesColours (i : Instr) : Bool :=
  match i with
  | .init _ => false
  | .setColor _ _ _ _ => true
  | .setAll _ _ _ => true
  | .allOff => true
  | .update => false
  | .getColor _ => false
  | .onHt => false
  | .onTc => false
  | .rdTick => false

/-- The pending latch after an event has been handled (R147, R148): cleared in the closed view, not touched in the open view. -/
def latchAfter (s : State) : Option Event :=
  match s.cfg.view with
  | .closedView => none
  | .openView => s.evtPend

/-- Entry `p` lies in half `h` (R23). -/
abbrev inHalf (c : Config) (h : Half) (p : Nat) : Prop := halfBase c h ≤ p ∧ p < halfBase c h + c.halfLen

/-- Entry `p` lies in the run of LED `led` (R131). -/
abbrev inLedRun (c : Config) (led p : Nat) : Prop := wrPos c led ≤ p ∧ p < wrPos c led + bitsPerLed

/-- The run of LED `led` holds the pulses of colour `x` (R53, R130). -/
abbrev holdsLed (c : Config) (m : Memory) (led : Nat) (x : Colour) : Prop :=
  ∀ j < bitsPerLed, m.bufAt (wrPos c led + j) = (encodePulses c x)[j]?

/-- How many events of this transmission have been handled: one batch each in case 3, one count each in case 2 (R150). -/
def eventsHandled (s : State) : Nat := s.prog / s.cfg.batch - 2 + s.rstCnt

/-- How many events of this transmission have been raised: the handled ones and the pending one. -/
def eventsRaised (s : State) : Nat := eventsHandled s + (if s.evtPend = none then 0 else 1)

/-- R39 (a) to (e): the four lifecycle values and what each implies, `dma_run` with them (R32). -/
abbrev Lifecycle (s : State) : Prop :=
  (s.opFlags = flagsIdle ∧ s.prog = 0 ∧ s.rstCnt = 0 ∧ s.dmaRun = false ∧ s.evtPend = none) ∨
  (s.opFlags = flagsStream ∧ 2 * s.cfg.batch ≤ s.prog ∧ s.prog < s.cfg.ledCount ∧ s.rstCnt = 0 ∧ s.dmaRun = true) ∨
  (s.opFlags = flagsGap ∧ s.prog = s.cfg.ledCount ∧ s.rstCnt < s.cfg.resetIrqThreshold ∧ s.dmaRun = true) ∨
  (s.opFlags = flagsStopping ∧ s.prog = s.cfg.ledCount ∧ s.rstCnt = s.cfg.resetIrqThreshold ∧ s.dmaRun = true)

/-- The cursor is in the half that the number of events raised says, and the pending event is the one that alternation says
(R155, R177). -/
abbrev InPhase (s : State) : Prop :=
  (s.rdPtr < s.cfg.halfLen ↔ eventsRaised s % 2 = 0) ∧
  (s.evtPend = some .ht → eventsHandled s % 2 = 0) ∧
  (s.evtPend = some .tc → eventsHandled s % 2 = 1)

/-- The invariant of the closed view for a configuration that transmits (R39).
R39 takes as a premise that every event is handled before the next is raised; here that premise is `fault = 0`, on the clause that needs
it, since an event raised too early latches `OVERRUN` (R192). -/
structure ClosedInv (s : State) : Prop where
  closed : s.cfg.view = .closedView
  transmits : s.cfg.transmits = true
  memory : s.mem.wf s.cfg
  lifecycle : Lifecycle s
  progMultiple : s.prog % s.cfg.batch = 0
  initFirst : s.initDone = false → s.opFlags = flagsIdle
  cursor : s.rdPtr < s.cfg.bufLen
  written : s.dmaRun = true → ∀ p < s.cfg.bufLen, s.mem.bufAt p ≠ none
  symbols : ∀ e ∈ s.mem.buf, e.2 = s.cfg.dutyLow ∨ e.2 = s.cfg.dutyHigh ∨ e.2 = dutyIdle
  idleOutput : s.dmaRun = false → s.outDuty = dutyIdle
  cause : s.faultCause = if s.fault = true then .overrun else .none
  faultPending : s.fault = true → s.evtPend ≠ none
  phase : s.fault = false → s.dmaRun = true → InPhase s
  bulkInRange : ∀ k, s.bulk = some k → k.next < s.cfg.ledCount

/-- The frame of the colours `x` (R89): the runs of LED 0, LED 1, …, LED N - 1. -/
def frame (c : Config) (x : Nat → Colour) : List Duty :=
  (List.range c.ledCount).flatMap fun i => encodePulses c (x i)

/-- The value that a transmission of the colours `x` streams at position `n`: the frame, then the idle level (R89, R178). -/
def streamValue (c : Config) (x : Nat → Colour) (n : Nat) : Duty := (frame c x)[n]?.getD dutyIdle

/-- The transmission in progress streams the frame of the colours `x` (R65, R178): the LEDs still to be encoded have these colours, the
trace is the frame's beginning, as long as the events raised and the cursor say, and the buffer holds what comes next. -/
structure StreamsFrame (x : Nat → Colour) (s : State) : Prop where
  ahead : ∀ i, s.prog ≤ i → i < s.cfg.ledCount → s.mem.colorAt i = x i
  traced : s.dmaRun = true → s.fault = false →
    s.trace = (List.range (eventsRaised s * s.cfg.halfLen + s.rdPtr % s.cfg.halfLen)).map (streamValue s.cfg x)
  buffered : s.dmaRun = true → s.fault = false →
    ∀ n, s.trace.length ≤ n → n < (eventsHandled s + 2) * s.cfg.halfLen →
      s.mem.bufAt (n % s.cfg.bufLen) = some (streamValue s.cfg x n)

end Sys2Proof.Machine
end

