-- ==== Sys2Proof/Certificates/Slice0/Obligations.lean ====
section
/-! DEFINITION. The statements for the provers. -/

open Sys2Proof Sys2Proof.Machine

/-! ### Encoding -/

/-- Decoding the word of any operation gives the operation back, for every value of every operand.
R81, R82, R84, R85; the layout is the spec's own decision D2. -/
def Obligations.DecodeEncodeRoundTrip : Prop :=
  ∀ i : Instr, decode (encode i) = .ok i

/-- R81's sum: `W = op × 2^40 + idx × 2^24 + r × 2^16 + g × 2^8 + b` (decision D2). -/
def Obligations.CommandWordIsWeightedSum : Prop :=
  ∀ (op : Byte) (idx : BitVec 16) (r g b : Byte),
    (packCmd op idx r g b).toNat =
      op.toNat * 2 ^ 40 + idx.toNat * 2 ^ 24 + r.toNat * 2 ^ 16 + g.toNat * 2 ^ 8 + b.toNat

/-- R83 (decision D26): two command words with the same op code decode alike when they agree on the fields that the operation uses. -/
def Obligations.UnusedFieldsIgnored : Prop :=
  ∀ w v : CmdWord, opField w = opField v →
    (opField w = 0x01#8 ∨ opField w = 0x02#8 ∨ opField w = 0x06#8 → idxField w = idxField v) →
    (opField w = 0x02#8 ∨ opField w = 0x03#8 → rField w = rField v ∧ gField w = gField v ∧ bField w = bField v) →
    decode (.cmd w) = decode (.cmd v)

/-- A word names an operation exactly when it is well formed: R82 and R90 for commands (decision D2), R84, R85. -/
def Obligations.DecodableIffWellFormed : Prop :=
  ∀ w : OpWord, (∃ i, decode w = .ok i) ↔ w.wellFormed = true

/-- The command and event words of section 2.1 of `95_test_vectors.md` decode to the operations written there, and the two levels of
the bit strobe as R85 says. The codes are the spec's own decisions D2 (commands), D22 (events) and D26 (unused fields). -/
def Obligations.WordsDecodeAsWritten : Prop :=
  decode (.cmd 0x010001000000#48) = .ok (.init 1) ∧
  decode (.cmd 0x020004010203#48) = .ok (.setColor 4 1 2 3) ∧
  decode (.cmd 0x03ABCD102030#48) = .ok (.setAll 16 32 48) ∧
  decode (.cmd 0x04FFFFFFFFFF#48) = .ok .allOff ∧
  decode (.cmd 0x050000000000#48) = .ok .update ∧
  decode (.cmd 0x060003000000#48) = .ok (.getColor 3) ∧
  decode (.cmd 0x070000000000#48) = .error (.reservedOp 7) ∧
  decode (.evt 0#1) = .ok .onHt ∧ decode (.evt 1#1) = .ok .onTc ∧
  decode (.strobe 1#1) = .ok .rdTick ∧ decode (.strobe 0#1) = .error .noTick

/-! ### The Pulse Encoder -/

/-- R121, R122: 24 values, green then red then blue, the most significant bit of each channel first. -/
def Obligations.EncodeIsGreenRedBlueMsbFirst : Prop :=
  ∀ (c : Config) (x : Colour),
    (encodePulses c x).length = 24 ∧
    ∀ m < 8,
      (encodePulses c x)[m]? = some (if x.g.getLsbD (7 - m) then c.dutyHigh else c.dutyLow) ∧
      (encodePulses c x)[8 + m]? = some (if x.r.getLsbD (7 - m) then c.dutyHigh else c.dutyLow) ∧
      (encodePulses c x)[16 + m]? = some (if x.b.getLsbD (7 - m) then c.dutyHigh else c.dutyLow)

/-- R120, R87: the encoder's output holds only the two bit symbols, and with the duty values of R8 (a) never the idle level. -/
def Obligations.EncodeNeverIdle : Prop :=
  ∀ (c : Config) (x : Colour), ∀ d ∈ encodePulses c x,
    (d = c.dutyHigh ∨ d = c.dutyLow) ∧ (c.dutyOk = true → d ≠ dutyIdle)

/-- R125 (the tie rule is decision D24): decoding by the midpoint recovers every colour whenever `DUTY_LOW < DUTY_HIGH`,
for then `DUTY_LOW ≤ mid < DUTY_HIGH`. -/
def Obligations.PulseRoundTrip : Prop :=
  ∀ (c : Config) (x : Colour), c.dutyLow.toNat < c.dutyHigh.toNat →
    c.dutyLow.toNat ≤ dutyMidpoint c ∧ dutyMidpoint c < c.dutyHigh.toNat ∧
    decodePulses c (encodePulses c x) = x

/-! ### The Transmission Buffer -/

/-- R131, R136: the write position of an LED, and the alternation of the batches between the halves. -/
def Obligations.BatchesAlternateHalves : Prop :=
  ∀ (c : Config) (led k i : Nat),
    wrPos c led = (led * 24) % (48 * c.batch) ∧
    (i < c.batch → wrPos c (k * c.batch + i) = (if k % 2 = 0 then 0 else 24 * c.batch) + 24 * i)

/-- R130: a refill that meets its precondition and stays below the last LED writes the run of each LED, in the ring, and nothing else.
Runs of at most the buffer's `2 × B` LEDs, since a longer one would overwrite its own beginning. -/
def Obligations.RefillWritesEachLed : Prop :=
  ∀ (s : State) (start count : Nat),
    start < s.cfg.ledCount → start + count ≤ s.cfg.ledCount → count ≤ 2 * s.cfg.batch →
    ∃ t, refill start count s = .goesOn t ∧
      (∀ i < count, holdsLed s.cfg t.mem (start + i) (s.mem.colorAt (start + i))) ∧
      (∀ p, (∀ i < count, ¬ inLedRun s.cfg (start + i) p) → t.mem.bufAt p = s.mem.bufAt p) ∧
      t = { s with mem := { color := s.mem.color, buf := t.mem.buf } }

/-- R132: a refill outside its precondition latches the contract violation and writes nothing (the latch is decision D9). -/
def Obligations.RefillPreconditionFaults : Prop :=
  ∀ (s : State) (start count : Nat),
    s.cfg.ledCount ≤ start ∨ s.cfg.ledCount < count →
    refill start count s = .ended { s with fault := true, faultCause := .contractViolation }

/-- R130, R132 (decision D15): a refill whose range runs past the last LED has written the LEDs below N when it latches the contract
violation. -/
def Obligations.RefillPastLastLedFaults : Prop :=
  ∀ (s : State) (start count : Nat),
    start < s.cfg.ledCount → count ≤ s.cfg.ledCount → s.cfg.ledCount < start + count →
    s.cfg.ledCount - start ≤ 2 * s.cfg.batch →
    ∃ t, refill start count s = .ended t ∧
      (∀ i, start + i < s.cfg.ledCount → holdsLed s.cfg t.mem (start + i) (s.mem.colorAt (start + i))) ∧
      (∀ p, (∀ i, start + i < s.cfg.ledCount → ¬ inLedRun s.cfg (start + i) p) →
        t.mem.bufAt p = s.mem.bufAt p) ∧
      t = { s with
        mem := { color := s.mem.color, buf := t.mem.buf }
        fault := true
        faultCause := .contractViolation }

/-- R134: zeroing a half writes the idle level to each of its entries and nothing else. -/
def Obligations.ZeroHalfWritesOneHalf : Prop :=
  ∀ (h : Half) (s : State),
    (∀ p, (zeroHalf h s).mem.bufAt p = if inHalf s.cfg h p then some dutyIdle else s.mem.bufAt p) ∧
    zeroHalf h s = { s with mem := { color := s.mem.color, buf := (zeroHalf h s).mem.buf } }

/-! ### Colour Store commands -/

/-- R110: `SET_COLOR` stores one colour and answers OK, or answers OUT_OF_RANGE and changes nothing; accepted in every lifecycle state
and before INIT (decision D13). -/
def Obligations.SetColorStoresOneLed : Prop :=
  ∀ (s : State) (idx : BitVec 16) (r g b : Byte), TaskReady s →
    (idx.toNat < s.cfg.ledCount →
      ∃ t, exec (.setColor idx r g b) s = .next t ∧
        (∀ i, t.mem.colorAt i = if i = idx.toNat then { r := r, g := g, b := b } else s.mem.colorAt i) ∧
        (∀ p, t.mem.bufAt p = s.mem.bufAt p) ∧
        t = { s with mem := t.mem, rspStatus := .ok }) ∧
    (s.cfg.ledCount ≤ idx.toNat →
      exec (.setColor idx r g b) s = .next { s with rspStatus := .outOfRange })

/-- R113 (decision D20): `GET_COLOR` answers the stored colour, red in the top byte, or OUT_OF_RANGE with `rsp_data` unchanged. -/
def Obligations.GetColorReadsOneLed : Prop :=
  ∀ (s : State) (idx : BitVec 16), TaskReady s →
    (idx.toNat < s.cfg.ledCount →
      ∃ d : BitVec 24,
        exec (.getColor idx) s = .next { s with rspStatus := .ok, rspData := d } ∧
        d.toNat = (s.mem.colorAt idx.toNat).r.toNat * 2 ^ 16 + (s.mem.colorAt idx.toNat).g.toNat * 2 ^ 8 +
          (s.mem.colorAt idx.toNat).b.toNat) ∧
    (s.cfg.ledCount ≤ idx.toNat →
      exec (.getColor idx) s = .next { s with rspStatus := .outOfRange })

/-- R111, R112: the first of the N steps of `SET_ALL` and of `ALL_OFF` writes LED 0 and leaves the rest to later steps, the response
with them. How the steps left over are held in State is the model's choice [log 6]. -/
def Obligations.BulkCommandsStart : Prop :=
  ∀ (s : State) (i : Instr) (c : Colour), TaskReady s → 1 ≤ s.cfg.ledCount →
    (i = .setAll c.r c.g c.b ∨ (i = .allOff ∧ c = Colour.off)) →
    ∃ t, exec i s = .next t ∧
      (∀ k, t.mem.colorAt k = if k = 0 then c else s.mem.colorAt k) ∧
      (∀ p, t.mem.bufAt p = s.mem.bufAt p) ∧
      (s.cfg.ledCount = 1 → t = { s with mem := t.mem, rspStatus := .ok }) ∧
      (2 ≤ s.cfg.ledCount → t = { s with mem := t.mem, bulk := some { colour := c, next := 1 } })

/-- R58, R111: the TASK agent's next step of a bulk command, also while the next command word waits (R205), writes one LED, and the
response comes with the last. The waiting is the model's choice [log 6]. -/
def Obligations.BulkStepWritesNextLed : Prop :=
  ∀ (s : State) (k : Bulk) (rest left : List Input),
    s.fault = false → s.bulk = some k → k.next < s.cfg.ledCount →
    ((s.inputs = .task :: rest ∧ left = rest) ∨ (∃ w, s.inputs = .port (.cmd w) :: rest ∧ left = s.inputs)) →
    ∃ t, step s = .next t ∧
      (∀ i, t.mem.colorAt i = if i = k.next then k.colour else s.mem.colorAt i) ∧
      (∀ p, t.mem.bufAt p = s.mem.bufAt p) ∧
      (k.next + 1 < s.cfg.ledCount →
        t = { s with mem := t.mem, bulk := some { k with next := k.next + 1 }, inputs := left }) ∧
      (k.next + 1 = s.cfg.ledCount →
        t = { s with mem := t.mem, bulk := none, rspStatus := .ok, inputs := left })

/-- R111, R112: a bulk command carried through its N steps has stored its colour in every LED and answers OK. -/
def Obligations.BulkCommandsSetEveryLed : Prop :=
  ∀ (s : State) (i : Instr) (c : Colour) (rest : List Input), TaskReady s → 1 ≤ s.cfg.ledCount →
    (i = .setAll c.r c.g c.b ∨ (i = .allOff ∧ c = Colour.off)) →
    s.inputs = .port (encode i) :: (List.replicate (s.cfg.ledCount - 1) .task ++ rest) →
    ∃ t : State, core.run s.cfg.ledCount s = .next t ∧
      (∀ k, t.mem.colorAt k = if k < s.cfg.ledCount then c else s.mem.colorAt k) ∧
      (∀ p, t.mem.bufAt p = s.mem.bufAt p) ∧
      t = { s with mem := t.mem, rspStatus := .ok, inputs := rest }

/-! ### INIT and UPDATE -/

/-- R160 (decision D13): what `INIT` answers and writes, the tests in their order. -/
def Obligations.InitChecksOnce : Prop :=
  ∀ (s : State) (ch : BitVec 16), TaskReady s →
    (s.initDone = true → exec (.init ch) s = .next { s with rspStatus := .alreadyInit }) ∧
    (s.initDone = false → s.cfg.ledCount % s.cfg.batch ≠ 0 →
      exec (.init ch) s = .next { s with rspStatus := .configError }) ∧
    (s.initDone = false → s.cfg.ledCount % s.cfg.batch = 0 →
      exec (.init ch) s = .next { s with channel := ch, initDone := true, rspStatus := .ok })

/-- R162: an accepted `UPDATE` fills both halves with batches 0 and 1, starts the stream at entry 0 and sets UPDATING. -/
def Obligations.UpdateStartsTransmission : Prop :=
  ∀ s : State, TaskReady s → s.initDone = true → updatingBit s.opFlags = false →
    1 ≤ s.cfg.ledCount → 2 * s.cfg.batch ≤ s.cfg.ledCount →
    ∃ t, exec .update s = .next t ∧
      (∀ led < 2 * s.cfg.batch, ∀ j < 24,
        t.mem.bufAt (24 * led + j) = (encodePulses s.cfg (s.mem.colorAt led))[j]?) ∧
      (∀ p, s.cfg.bufLen ≤ p → t.mem.bufAt p = s.mem.bufAt p) ∧
      t = { s with
        mem := { color := s.mem.color, buf := t.mem.buf }
        prog := 2 * s.cfg.batch
        dmaRun := true
        rdPtr := 0
        trace := []
        opFlags := s.opFlags ||| 0b001#3
        rspStatus := .ok }

/-- R163: `UPDATE` while a transmission is in progress changes nothing and is answered OK. -/
def Obligations.UpdateWhileBusyIgnored : Prop :=
  ∀ s : State, TaskReady s → s.initDone = true → updatingBit s.opFlags = true →
    exec .update s = .next { s with rspStatus := .ok }

/-- R162 (decision D13): `UPDATE` before a successful `INIT` answers NOT_INIT. -/
def Obligations.UpdateBeforeInitRefused : Prop :=
  ∀ s : State, TaskReady s → s.initDone = false →
    exec .update s = .next { s with rspStatus := .notInit }

/-- R165, R190, R132 (decisions D9, D14, D15): with fewer than two batches `UPDATE` latches the contract violation and starts nothing.
If there is a whole first batch, every LED has been encoded at its place (with N = B that is the first half); if not, nothing has. -/
def Obligations.UpdateBelowTwoBatchesFaults : Prop :=
  ∀ s : State, TaskReady s → s.initDone = true → updatingBit s.opFlags = false →
    (s.cfg.ledCount = 0 ∨ s.cfg.ledCount < 2 * s.cfg.batch) →
    ∃ t, exec .update s = .next t ∧
      (s.cfg.batch ≤ s.cfg.ledCount → ∀ led < s.cfg.ledCount, ∀ j < 24,
        t.mem.bufAt (24 * led + j) = (encodePulses s.cfg (s.mem.colorAt led))[j]?) ∧
      (∀ p, s.cfg.ledCount < s.cfg.batch ∨ 24 * s.cfg.ledCount ≤ p → t.mem.bufAt p = s.mem.bufAt p) ∧
      t = { s with
        mem := { color := s.mem.color, buf := t.mem.buf }
        fault := true
        faultCause := .contractViolation }

/-- R190, R205: a command that is not accepted, because of a fault or of a command in progress, changes nothing [log 5]. -/
def Obligations.CommandNotAcceptedChangesNothing : Prop :=
  ∀ (s : State) (i : Instr), isCommand i = true → s.fault = true ∨ s.bulk ≠ none →
    exec i s = .next s

/-! ### The state machine -/

/-- R145: the stop case, for both events in both views. The idle level put out at the stop is decision D16 (R172); the latch, cleared in
the closed view, is R147, R148 and decision D10, and that the open view leaves it alone is the model's reading [log 7]. -/
def Obligations.StopCaseEndsTransmission : Prop :=
  ∀ (e : Event) (s : State), EventEnabled e s → dmaStopBit s.opFlags = true →
    exec (eventInstr e) s = .next { s with
      dmaRun := false
      outDuty := 0
      opFlags := 0b000#3
      prog := 0
      rstCnt := 0
      evtPend := latchAfter s }

/-- R144 (the comparison is decision D7): the gap case zeroes the half that the event names, counts, and sets DMA_STOP when the new count
reaches T. -/
def Obligations.GapCaseZeroesVacatedHalf : Prop :=
  ∀ (e : Event) (s : State), EventEnabled e s →
    dmaStopBit s.opFlags = false → resetSignalBit s.opFlags = true →
    ∃ t, exec (eventInstr e) s = .next t ∧
      (∀ p, t.mem.bufAt p =
        if (e = .ht ∧ p < s.cfg.halfLen) ∨ (e = .tc ∧ s.cfg.halfLen ≤ p ∧ p < s.cfg.bufLen) then some 0
        else s.mem.bufAt p) ∧
      t = { s with
        mem := { color := s.mem.color, buf := t.mem.buf }
        rstCnt := s.rstCnt + 1
        opFlags := if s.cfg.resetIrqThreshold ≤ s.rstCnt + 1 then s.opFlags ||| 0b100#3 else s.opFlags
        evtPend := latchAfter s }

/-- R143: the streaming case refills the next batch, advances the Progress Counter and sets RESET_SIGNAL when the new value has reached
N; if the refill faults (R132, decision D15), neither happens. -/
def Obligations.StreamCaseRefillsNextBatch : Prop :=
  ∀ (e : Event) (s : State), EventEnabled e s →
    dmaStopBit s.opFlags = false → resetSignalBit s.opFlags = false →
    (s.prog < s.cfg.ledCount → s.prog + s.cfg.batch ≤ s.cfg.ledCount →
      ∃ t, exec (eventInstr e) s = .next t ∧
        (∀ i < s.cfg.batch, holdsLed s.cfg t.mem (s.prog + i) (s.mem.colorAt (s.prog + i))) ∧
        (∀ p, (∀ i < s.cfg.batch, ¬ inLedRun s.cfg (s.prog + i) p) → t.mem.bufAt p = s.mem.bufAt p) ∧
        t = { s with
          mem := { color := s.mem.color, buf := t.mem.buf }
          prog := s.prog + s.cfg.batch
          opFlags := if s.cfg.ledCount ≤ s.prog + s.cfg.batch then s.opFlags ||| 0b010#3 else s.opFlags
          evtPend := latchAfter s }) ∧
    (s.cfg.ledCount ≤ s.prog ∨ s.cfg.ledCount < s.prog + s.cfg.batch →
      ∃ t, exec (eventInstr e) s = .next t ∧
        (s.cfg.batch ≤ s.cfg.ledCount → ∀ i < s.cfg.batch, s.prog + i < s.cfg.ledCount →
          holdsLed s.cfg t.mem (s.prog + i) (s.mem.colorAt (s.prog + i))) ∧
        (∀ p, (s.cfg.ledCount < s.cfg.batch ∨
            ∀ i < s.cfg.batch, s.prog + i < s.cfg.ledCount → ¬ inLedRun s.cfg (s.prog + i) p) →
          t.mem.bufAt p = s.mem.bufAt p) ∧
        t = { s with
          mem := { color := s.mem.color, buf := t.mem.buf }
          fault := true
          faultCause := .contractViolation
          evtPend := latchAfter s })

/-- R147, R148, R190: an event that is not enabled, because of a fault or, in the closed view, because it is not the pending one, changes
nothing [log 5]. -/
def Obligations.EventNotEnabledChangesNothing : Prop :=
  ∀ (e : Event) (s : State),
    s.fault = true ∨ (s.cfg.view = .closedView ∧ s.evtPend ≠ some e) →
    exec (eventInstr e) s = .next s

/-- R150 in the open view: whatever events are fed, a transmission that `UPDATE` has just started is over after exactly
`N / B - 1 + T` of them, every flag and counter zero again, and not before. -/
def Obligations.TransmissionTakesExactlyTheCountedEvents : Prop :=
  ∀ (s : State) (es : List Event),
    s.cfg.view = .openView → s.cfg.transmits = true → s.fault = false →
    s.opFlags = flagsStream → s.prog = 2 * s.cfg.batch → s.rstCnt = 0 →
    s.inputs = es.map (fun e => .port (.evt (eventBit e))) →
    es.length = s.cfg.ledCount / s.cfg.batch - 1 + s.cfg.resetIrqThreshold →
    (∃ t : State, core.run es.length s = .next t ∧
      t.opFlags = flagsIdle ∧ t.prog = 0 ∧ t.rstCnt = 0 ∧ t.dmaRun = false ∧ t.fault = false) ∧
    ∀ k < es.length, ∃ u : State, core.run k s = .next u ∧ u.opFlags ≠ flagsIdle ∧ u.fault = false

/-! ### The stream port -/

/-- R175, R174 (decisions D10, D16, D27): an enabled tick puts out the entry at the cursor, appends it to the trace, advances the cursor
round the ring, and at the two boundaries raises the event, latches OVERRUN if one is pending, or in a fault raises nothing.
The trace is recorded by the model [log 8]. -/
def Obligations.TickStreamsOneEntry : Prop :=
  ∀ (s : State) (d : Duty) (q : Nat), TickEnabled s → s.rdPtr < s.cfg.bufLen →
    s.mem.bufAt s.rdPtr = some d → q = (if s.rdPtr + 1 = s.cfg.bufLen then 0 else s.rdPtr + 1) →
    (s.fault = true ∨ (q ≠ s.cfg.halfLen ∧ q ≠ 0) →
      exec .rdTick s = .next { s with outDuty := d, rdPtr := q, trace := s.trace ++ [d] }) ∧
    (s.fault = false → s.evtPend = none → q = s.cfg.halfLen →
      exec .rdTick s = .next { s with outDuty := d, rdPtr := q, trace := s.trace ++ [d], evtPend := some .ht }) ∧
    (s.fault = false → s.evtPend = none → q = 0 →
      exec .rdTick s = .next { s with outDuty := d, rdPtr := q, trace := s.trace ++ [d], evtPend := some .tc }) ∧
    (s.fault = false → s.evtPend ≠ none → q = s.cfg.halfLen ∨ q = 0 →
      exec .rdTick s = .next { s with
        outDuty := d, rdPtr := q, trace := s.trace ++ [d], fault := true, faultCause := .overrun })

/-- R175, R11: a tick while the stream is off, or in the open view, changes nothing [log 5, log 7]; a tick at an entry without a value or
at a cursor outside the buffer stops the model, which is the model's choice [log 2, log 3]. -/
def Obligations.TickOffOrStops : Prop :=
  ∀ s : State,
    (¬ TickEnabled s → exec .rdTick s = .next s) ∧
    (TickEnabled s → s.rdPtr < s.cfg.bufLen → s.mem.bufAt s.rdPtr = none →
      exec .rdTick s = .fault (.unwrittenEntry s.rdPtr)) ∧
    (TickEnabled s → s.cfg.bufLen ≤ s.rdPtr → exec .rdTick s = .fault (.noSuchEntry s.rdPtr))

/-! ### The step -/

/-- A step runs the operation that the word on its port decodes to, with that input used up; a command word only when no command is in
progress (R205). The IRQ agent's turn runs the pending event (R84). The list of inputs is the model's choice [log 4]. -/
def Obligations.StepRunsDecodedOperation : Prop :=
  ∀ (s : State) (rest : List Input),
    (∀ w i, s.inputs = .port w :: rest → decode w = .ok i → (isCommand i = true → s.bulk = none ∨ s.fault = true) →
      step s = exec i { s with inputs := rest }) ∧
    (∀ e, s.inputs = .irq :: rest → s.cfg.view = .closedView → s.evtPend = some e →
      step s = exec (eventInstr e) { s with inputs := rest })

/-- Where no operation is named or nothing is there to do, the step only uses up its input: no input, a strobe at 0 (R85), the IRQ agent's
turn with nothing pending, the TASK agent's turn with no command in progress or in a fault (R190) [log 4, log 5]. -/
def Obligations.StepWithNothingToDo : Prop :=
  ∀ (s : State) (rest : List Input),
    (s.inputs = [] → step s = .next s) ∧
    (s.inputs = .port (.strobe 0#1) :: rest → step s = .next { s with inputs := rest }) ∧
    (s.inputs = .irq :: rest → s.cfg.view = .openView ∨ s.evtPend = none → step s = .next { s with inputs := rest }) ∧
    (s.inputs = .task :: rest → s.bulk = none ∨ s.fault = true → step s = .next { s with inputs := rest })

/-- R90 (a) (decision D2): a command word with a reserved op code answers ILLEGAL_OP and changes no other state. -/
def Obligations.ReservedOpAnswersIllegal : Prop :=
  ∀ (s : State) (w : CmdWord) (rest : List Input), TaskReady s → s.inputs = .port (.cmd w) :: rest →
    (opField w).toNat = 0 ∨ 7 ≤ (opField w).toNat →
    step s = .next { s with inputs := rest, rspStatus := .illegalOp }

/-- R38, R215 (decision D25): the reset input puts every state at its reset value, in any state, a faulted one too. The parameters stay
and the inputs after it are still to come, which is the model's choice [log 11]. -/
def Obligations.HardResetRestoresEverything : Prop :=
  ∀ (s : State) (rest : List Input), s.inputs = .reset :: rest →
    ∃ t, step s = .next t ∧
      (∀ i, t.mem.colorAt i = { r := 0, g := 0, b := 0 }) ∧ (∀ p, t.mem.bufAt p = none) ∧
      t.prog = 0 ∧ t.opFlags = 0b000#3 ∧ t.rstCnt = 0 ∧ t.initDone = false ∧ t.channel = 0 ∧
      t.dmaRun = false ∧ t.rdPtr = 0 ∧ t.evtPend = none ∧ t.fault = false ∧ t.faultCause = .none ∧
      t.outDuty = 0 ∧ t.rspStatus = .ok ∧ t.rspData = 0 ∧ t.bulk = none ∧
      t.cfg = s.cfg ∧ t.inputs = rest

/-! ### Rules about the whole machine -/

/-- R6: no operation changes a parameter; nor does any other step. -/
def Obligations.ParametersNeverChange : Prop :=
  ∀ s t : State, step s = .next t → t.cfg = s.cfg

/-- Every step keeps the canonical form of the two memories, in every configuration and both views [log 2]. -/
def Obligations.StepKeepsMemoryCanonical : Prop :=
  ∀ s t : State, s.mem.wf s.cfg → step s = .next t → t.mem.wf t.cfg

/-- R190 (decision D9): once a fault is latched, every step but hardware reset leaves everything alone except what the read port streams. -/
def Obligations.FaultIsStickyAndFreezes : Prop :=
  ∀ s t : State, s.fault = true → s.inputs.head? ≠ some .reset → step s = .next t →
    t = { s with outDuty := t.outDuty, rdPtr := t.rdPtr, trace := t.trace, inputs := t.inputs }

/-- R22: only the setters write the Colour Store. -/
def Obligations.OnlySettersWriteColours : Prop :=
  ∀ (i : Instr) (s t : State), writesColours i = false → exec i s = .next t → t.mem.color = s.mem.color

/-- R24: the Progress Counter is written only by `UPDATE`, which sets it to 2B, and by an event, which adds B or sets it to 0. -/
def Obligations.ProgressCounterWrites : Prop :=
  ∀ (i : Instr) (s t : State), exec i s = .next t →
    t.prog = s.prog ∨ (i = .update ∧ t.prog = 2 * s.cfg.batch) ∨
    ((i = .onHt ∨ i = .onTc) ∧ (t.prog = s.prog + s.cfg.batch ∨ t.prog = 0))

/-- R61: while UPDATING is set, no command writes the flags, the counters, the buffer or the stream's control state. -/
def Obligations.BusyCommandsLeaveTransmissionAlone : Prop :=
  ∀ (i : Instr) (s t : State), isCommand i = true → updatingBit s.opFlags = true → exec i s = .next t →
    t.opFlags = s.opFlags ∧ t.prog = s.prog ∧ t.rstCnt = s.rstCnt ∧ t.mem.buf = s.mem.buf ∧
    t.dmaRun = s.dmaRun ∧ t.rdPtr = s.rdPtr ∧ t.evtPend = s.evtPend ∧ t.fault = s.fault ∧ t.outDuty = s.outDuty

/-- R228, R171: only `UPDATE` starts the stream and only an event stops it. -/
def Obligations.OnlyUpdateStartsOnlyEventsStop : Prop :=
  ∀ (i : Instr) (s t : State), exec i s = .next t →
    (s.dmaRun = false → t.dmaRun = true → i = .update) ∧
    (s.dmaRun = true → t.dmaRun = false → (i = .onHt ∨ i = .onTc) ∧ dmaStopBit s.opFlags = true)

/-- R36: only commands write `rsp_status` and only `GET_COLOR` writes `rsp_data`. -/
def Obligations.ResponseRegistersWrittenByCommandsOnly : Prop :=
  ∀ (i : Instr) (s t : State), exec i s = .next t →
    (isCommand i = false → t.rspStatus = s.rspStatus) ∧
    ((∀ idx, i ≠ .getColor idx) → t.rspData = s.rspData)

/-- R179: the channel register has no effect on anything else: with another channel every operation does the same to all the rest. -/
def Obligations.ChannelHasNoOtherEffect : Prop :=
  ∀ (i : Instr) (s t : State) (ch : BitVec 16), exec i s = .next t →
    ∃ u, exec i { s with channel := ch } = .next u ∧ { u with channel := t.channel } = t

/-- The outputs (R173, R204; they are decision D1): each shows the register it stands for, the response status by the codes of R86
(decision D3), the fault cause by those of R34, the interrupt lines the two values of the pending latch. With the latch's own codes (R33,
decision D22), and the codes that the registers never hold (R33, R34, R86, R90 (c)). -/
def Obligations.PortsNeverShowUnusedCodes : Prop :=
  ∀ s : State,
    ((s.rspStatus = .ok → s.ports.rspStatus = 0x0#4) ∧ (s.rspStatus = .outOfRange → s.ports.rspStatus = 0x1#4) ∧
      (s.rspStatus = .configError → s.ports.rspStatus = 0x2#4) ∧ (s.rspStatus = .notInit → s.ports.rspStatus = 0x3#4) ∧
      (s.rspStatus = .alreadyInit → s.ports.rspStatus = 0x4#4) ∧ (s.rspStatus = .illegalOp → s.ports.rspStatus = 0x5#4)) ∧
    ((s.faultCause = .none → s.ports.faultCause = 0#2) ∧ (s.faultCause = .contractViolation → s.ports.faultCause = 1#2) ∧
      (s.faultCause = .overrun → s.ports.faultCause = 2#2)) ∧
    (evtPendCode none = 0b00#2 ∧ evtPendCode (some .ht) = 0b10#2 ∧ evtPendCode (some .tc) = 0b11#2) ∧
    ((s.ports.irqHt = true ↔ s.evtPend = some .ht) ∧ (s.ports.irqTc = true ↔ s.evtPend = some .tc)) ∧
    (s.ports.outDuty = s.outDuty ∧ s.ports.dmaRun = s.dmaRun ∧ s.ports.strmChannel = s.channel ∧
      s.ports.rspData = s.rspData ∧ s.ports.opFlags = s.opFlags ∧ s.ports.prog = s.prog ∧
      s.ports.rstCnt = s.rstCnt ∧ s.ports.initDone = s.initDone ∧ s.ports.fault = s.fault) ∧
    (evtPendCode s.evtPend ≠ 0b01#2 ∧ s.ports.faultCause ≠ 3#2 ∧ s.ports.rspStatus.toNat ≤ 5 ∧
      ¬ (s.ports.irqHt = true ∧ s.ports.irqTc = true))

/-! ### The closed view -/

/-- The state after reset of any closed-view configuration that transmits meets the invariant (R38, R39). -/
def Obligations.ResetMeetsClosedInv : Prop :=
  ∀ c : Config, c.view = .closedView → c.transmits = true → ClosedInv (State.resetFor c)

/-- R39: every step keeps the invariant of the closed view, from every state that meets it. -/
def Obligations.StepKeepsClosedInv : Prop :=
  ∀ s t : State, ClosedInv s → step s = .next t → ClosedInv t

/-- R38, R191: from a state that meets the invariant no step stops: no entry is read before it is written. -/
def Obligations.ClosedStepNeverStops : Prop :=
  ∀ s : State, ClosedInv s → ∃ t, step s = .next t

/-- R27, R149: in the closed view the flags go round the lifecycle and no other way, hardware reset aside. -/
def Obligations.FlagsFollowLifecycle : Prop :=
  ∀ s t : State, ClosedInv s → step s = .next t → s.inputs.head? ≠ some .reset →
    t.opFlags = s.opFlags ∨
    (s.opFlags = 0b000#3 ∧ t.opFlags = 0b001#3) ∨ (s.opFlags = 0b001#3 ∧ t.opFlags = 0b011#3) ∨
    (s.opFlags = 0b011#3 ∧ t.opFlags = 0b111#3) ∨ (s.opFlags = 0b111#3 ∧ t.opFlags = 0b000#3)

/-- R62, R39 (f), the double-buffering invariant: handling the pending event writes no entry of the half that the read cursor is in. -/
def Obligations.HandlerNeverWritesHalfBeingRead : Prop :=
  ∀ (s : State) (e : Event), ClosedInv s → s.fault = false → s.evtPend = some e →
    ∃ t, exec (eventInstr e) s = .next t ∧
      ∀ p, (p < s.cfg.halfLen ↔ s.rdPtr < s.cfg.halfLen) → t.mem.bufAt p = s.mem.bufAt p

/-- R65, R177, R178: every step of a transmission keeps streaming the frame of the colours `x`, as long as the LEDs still to be encoded
have those colours after the step. The trace is the list that the model records [log 8]. -/
def Obligations.StepKeepsStreamingFrame : Prop :=
  ∀ (x : Nat → Colour) (s t : State), ClosedInv s → StreamsFrame x s → step s = .next t →
    (∀ i, t.prog ≤ i → i < t.cfg.ledCount → t.mem.colorAt i = x i) →
    StreamsFrame x t

/-- R178, R229: when the stop event is handled, the trace of the transmission is the frame of its colours followed by
`(T - 1) × HALF_LEN + d` idle values, `d` being how far the cursor has gone into its half; the stream is off and the line idle.
The trace is the list that the model records [log 8]; the idle level after the stop is decision D16. -/
def Obligations.TraceAtStopIsFrameAndGap : Prop :=
  ∀ (x : Nat → Colour) (s : State) (e : Event), ClosedInv s → StreamsFrame x s → s.fault = false →
    s.opFlags = flagsStopping → s.evtPend = some e →
    ∃ t, exec (eventInstr e) s = .next t ∧
      t.trace = frame s.cfg x ++
        List.replicate ((s.cfg.resetIrqThreshold - 1) * s.cfg.halfLen + s.rdPtr % s.cfg.halfLen) dutyIdle ∧
      t.opFlags = flagsIdle ∧ t.dmaRun = false ∧ t.outDuty = dutyIdle
end

