-- ==== Sys2Proof/Laws/Fields.lean ====
section
/-! SUPPORT. The bits of the words that are packed from fields: the command word (R81) and the wire word of a colour (R88). -/

namespace Sys2Proof

/-- Bit `i` of a command word, field by field. -/
theorem getLsbD_packCmd (op : Byte) (idx : BitVec 16) (r g b : Byte) (i : Nat) :
    (packCmd op idx r g b).getLsbD i =
      if i < 8 then b.getLsbD i else if i < 16 then g.getLsbD (i - 8)
      else if i < 24 then r.getLsbD (i - 16) else if i < 40 then idx.getLsbD (i - 24)
      else op.getLsbD (i - 40) := by
  have h : (packCmd op idx r g b).getLsbD i = (op ++ idx ++ r ++ g ++ b).getLsbD i := rfl
  simp only [h, BitVec.getLsbD_append]
  repeat' split
  all_goals first | omega | (congr 1)

@[simp] theorem opField_packCmd (op : Byte) (idx : BitVec 16) (r g b : Byte) :
    opField (packCmd op idx r g b) = op := by
  refine BitVec.eq_of_getLsbD_eq fun i hi => ?_
  have h8 : ¬ 40 + i < 8 := by omega
  have h16 : ¬ 40 + i < 16 := by omega
  have h24 : ¬ 40 + i < 24 := by omega
  simp [opField, getLsbD_packCmd, hi, h8, h16, h24]

@[simp] theorem idxField_packCmd (op : Byte) (idx : BitVec 16) (r g b : Byte) :
    idxField (packCmd op idx r g b) = idx := by
  refine BitVec.eq_of_getLsbD_eq fun i hi => ?_
  have h8 : ¬ 24 + i < 8 := by omega
  have h16 : ¬ 24 + i < 16 := by omega
  have h40 : 24 + i < 40 := by omega
  simp [idxField, getLsbD_packCmd, hi, h8, h16, h40]

@[simp] theorem rField_packCmd (op : Byte) (idx : BitVec 16) (r g b : Byte) :
    rField (packCmd op idx r g b) = r := by
  refine BitVec.eq_of_getLsbD_eq fun i hi => ?_
  have h8 : ¬ 16 + i < 8 := by omega
  have h24 : 16 + i < 24 := by omega
  simp [rField, getLsbD_packCmd, hi, h8, h24]

@[simp] theorem gField_packCmd (op : Byte) (idx : BitVec 16) (r g b : Byte) :
    gField (packCmd op idx r g b) = g := by
  refine BitVec.eq_of_getLsbD_eq fun i hi => ?_
  have : 8 + i < 16 := by omega
  simp [gField, getLsbD_packCmd, hi, this]

@[simp] theorem bField_packCmd (op : Byte) (idx : BitVec 16) (r g b : Byte) :
    bField (packCmd op idx r g b) = b := by
  refine BitVec.eq_of_getLsbD_eq fun i hi => ?_
  simp [bField, getLsbD_packCmd, hi]

namespace Machine

/-- Bit `i` of a colour's wire word: blue lowest, red, green on top (R88). -/
theorem getLsbD_wireWord (x : Colour) (i : Nat) :
    (wireWord x).getLsbD i =
      if i < 8 then x.b.getLsbD i else if i < 16 then x.r.getLsbD (i - 8) else x.g.getLsbD (i - 16) := by
  have h : (wireWord x).getLsbD i = (x.g ++ x.r ++ x.b).getLsbD i := rfl
  simp only [h, BitVec.getLsbD_append]
  repeat' split
  all_goals first | omega | (congr 1)

/-- Bit `i` of a colour as `rsp_data` carries it: blue lowest, green, red on top (R113). -/
theorem getLsbD_packRgb (x : Colour) (i : Nat) :
    (packRgb x).getLsbD i =
      if i < 8 then x.b.getLsbD i else if i < 16 then x.g.getLsbD (i - 8) else x.r.getLsbD (i - 16) := by
  have h : (packRgb x).getLsbD i = (x.r ++ x.g ++ x.b).getLsbD i := rfl
  simp only [h, BitVec.getLsbD_append]
  repeat' split
  all_goals first | omega | (congr 1)

end Machine

end Sys2Proof
end

