-- ==== Sys2Proof/Laws/Memory.lean ====
section
/-! SUPPORT. The two memories: a read after a write, a write leaves every other place alone, and every operation keeps the
canonical form. -/

namespace Sys2Proof.Machine

section Tables
variable {α : Type}

@[simp] theorem tableRead_tableWrite (t : List (Nat × α)) (i j : Nat) (v : α) :
    tableRead (tableWrite t i v) j = if j = i then some v else tableRead t j := by
  induction t with
  | nil => simp [tableWrite, tableRead]
  | cons e rest ih =>
    obtain ⟨k, w⟩ := e
    simp only [tableWrite]
    split
    · simp [tableRead]
    · split
      · subst_vars
        by_cases h : j = k <;> simp [tableRead, h]
      · by_cases h : j = k <;> by_cases h' : j = i <;> simp_all [tableRead]

@[simp] theorem tableRead_tableErase (t : List (Nat × α)) (i j : Nat) :
    tableRead (tableErase t i) j = if j = i then none else tableRead t j := by
  induction t with
  | nil => simp [tableErase, tableRead]
  | cons e rest ih =>
    obtain ⟨k, w⟩ := e
    have ih' : tableRead (List.filter (fun e : Nat × α => decide (e.1 ≠ i)) rest) j
        = if j = i then none else tableRead rest j := ih
    simp only [tableErase, List.filter_cons]
    by_cases hk : k = i
    · subst hk
      by_cases h : j = k <;> simp_all [tableRead]
    · by_cases h : j = k <;> by_cases h' : j = i <;> simp_all [tableRead]

theorem mem_tableWrite {t : List (Nat × α)} {i : Nat} {v : α} {e : Nat × α}
    (h : e ∈ tableWrite t i v) : e = (i, v) ∨ e ∈ t := by
  induction t with
  | nil => simpa [tableWrite] using h
  | cons a rest ih =>
    simp only [tableWrite] at h
    split at h
    · simpa using h
    · split at h
      · rcases List.mem_cons.1 h with h | h <;> simp [h]
      · rcases List.mem_cons.1 h with h | h
        · simp [h]
        · rcases ih h with h | h <;> simp [h]

theorem tableRising_tableWrite {t : List (Nat × α)} (h : tableRising t) (i : Nat) (v : α) :
    tableRising (tableWrite t i v) := by
  induction t with
  | nil => simp [tableWrite]
  | cons a rest ih =>
    obtain ⟨ha, hr⟩ := List.pairwise_cons.1 h
    simp only [tableWrite]
    split
    case isTrue hlt =>
      refine List.pairwise_cons.2 ⟨fun e he => ?_, h⟩
      rcases List.mem_cons.1 he with rfl | he
      · exact hlt
      · exact Nat.lt_trans hlt (ha e he)
    case isFalse hnlt =>
      split
      case isTrue heq => exact List.pairwise_cons.2 ⟨fun e he => heq ▸ ha e he, hr⟩
      case isFalse hne =>
        refine List.pairwise_cons.2 ⟨fun e he => ?_, ih hr⟩
        rcases mem_tableWrite he with rfl | he
        · show a.1 < i
          omega
        · exact ha e he

theorem tableRising_tableErase {t : List (Nat × α)} (h : tableRising t) (i : Nat) :
    tableRising (tableErase t i) := List.Pairwise.filter _ h

theorem mem_tableErase {t : List (Nat × α)} {i : Nat} {e : Nat × α} (h : e ∈ tableErase t i) :
    e ∈ t := List.mem_of_mem_filter h

/-- With rising indexes, reading finds exactly what is listed. -/
theorem tableRead_eq_some_iff {t : List (Nat × α)} (h : tableRising t) (i : Nat) (v : α) :
    tableRead t i = some v ↔ (i, v) ∈ t := by
  induction t with
  | nil => simp [tableRead]
  | cons e rest ih =>
    obtain ⟨k, w⟩ := e
    obtain ⟨hk, hr⟩ := List.pairwise_cons.1 h
    rw [tableRead]
    by_cases hi : i = k
    · subst hi
      have hn : (i, v) ∉ rest := fun hm => Nat.lt_irrefl i (hk _ hm)
      simp [hn, eq_comm]
    · simp [hi, ih hr]

end Tables

namespace Memory

@[simp] theorem colorAt_setColor (m : Memory) (i j : Nat) (c : Colour) :
    (m.setColor i c).colorAt j = if j = i then c else m.colorAt j := by
  by_cases hc : c = Colour.off <;> by_cases hj : j = i <;> simp [setColor, colorAt, hc, hj]

@[simp] theorem bufAt_setColor (m : Memory) (i p : Nat) (c : Colour) :
    (m.setColor i c).bufAt p = m.bufAt p := rfl

@[simp] theorem buf_setColor (m : Memory) (i : Nat) (c : Colour) : (m.setColor i c).buf = m.buf := rfl

@[simp] theorem bufAt_setBuf (m : Memory) (p q : Nat) (d : Duty) :
    (m.setBuf p d).bufAt q = if q = p then some d else m.bufAt q := by
  simp [setBuf, bufAt]

@[simp] theorem color_setBuf (m : Memory) (p : Nat) (d : Duty) : (m.setBuf p d).color = m.color := rfl

@[simp] theorem color_writeRun (m : Memory) (p : Nat) (vs : List Duty) :
    (m.writeRun p vs).color = m.color := by
  induction vs generalizing m p with
  | nil => rfl
  | cons v rest ih => simp [writeRun, ih]

@[simp] theorem colorAt_writeRun (m : Memory) (p i : Nat) (vs : List Duty) :
    (m.writeRun p vs).colorAt i = m.colorAt i := by simp [colorAt]

/-- What `MemWrite` does to every entry: inside the run the value of the run, outside it nothing. -/
theorem bufAt_writeRun (m : Memory) (p q : Nat) (vs : List Duty) :
    (m.writeRun p vs).bufAt q = if p ≤ q ∧ q < p + vs.length then vs[q - p]? else m.bufAt q := by
  induction vs generalizing m p with
  | nil =>
    have : ¬ (p ≤ q ∧ q < p + 0) := by omega
    exact (if_neg this).symm
  | cons v rest ih =>
    rw [writeRun, ih, bufAt_setBuf]
    by_cases h : q = p
    · subst h
      simp
    · by_cases h1 : p + 1 ≤ q ∧ q < p + 1 + rest.length
      · have e : q - p = (q - (p + 1)) + 1 := by omega
        have h2 : p ≤ q ∧ q < p + (v :: rest).length := by simp; omega
        rw [if_pos h1, if_pos h2, e, List.getElem?_cons_succ]
      · have h2 : ¬ (p ≤ q ∧ q < p + (v :: rest).length) := by simp; omega
        rw [if_neg h1, if_neg h, if_neg h2]

theorem wf_setColor {c : Config} {m : Memory} (h : m.wf c) {i : Nat} (hi : i < c.ledCount)
    (x : Colour) : (m.setColor i x).wf c := by
  obtain ⟨h1, h2, h3⟩ := h
  unfold setColor
  by_cases hx : x = Colour.off
  · rw [if_pos hx]
    exact ⟨tableRising_tableErase h1 i, fun e he => h2 e (mem_tableErase he), h3⟩
  · rw [if_neg hx]
    refine ⟨tableRising_tableWrite h1 i x, fun e he => ?_, h3⟩
    rcases mem_tableWrite he with rfl | he
    · exact ⟨hi, hx⟩
    · exact h2 e he

theorem wf_setBuf {c : Config} {m : Memory} (h : m.wf c) {p : Nat} (hp : p < c.bufLen) (d : Duty) :
    (m.setBuf p d).wf c := by
  obtain ⟨h1, h2, h3, h4⟩ := h
  refine ⟨h1, h2, tableRising_tableWrite h3 p d, fun e he => ?_⟩
  rcases mem_tableWrite he with rfl | he
  · exact hp
  · exact h4 e he

theorem wf_writeRun {c : Config} {m : Memory} (h : m.wf c) {p : Nat} {vs : List Duty}
    (hp : p + vs.length ≤ c.bufLen) : (m.writeRun p vs).wf c := by
  induction vs generalizing m p with
  | nil => exact h
  | cons v rest ih =>
    simp only [List.length_cons] at hp
    exact ih (wf_setBuf h (by omega) v) (by omega)

/-- The memory after reset has the canonical form. -/
theorem wf_reset (c : Config) : (State.resetFor c).mem.wf c := by
  simp [State.resetFor, Memory.wf]

end Memory

end Sys2Proof.Machine
end

