-- ==== Sys2Proof/Laws/State.lean ====
section
/-! SUPPORT. One lemma per field for each named update of the state: what it writes, and that it writes nothing else. -/

namespace Sys2Proof.Machine

section
variable (s : State) (x : FaultCause)

@[simp] theorem latchFault_cfg : (latchFault x s).cfg = s.cfg := rfl
@[simp] theorem latchFault_mem : (latchFault x s).mem = s.mem := rfl
@[simp] theorem latchFault_prog : (latchFault x s).prog = s.prog := rfl
@[simp] theorem latchFault_opFlags : (latchFault x s).opFlags = s.opFlags := rfl
@[simp] theorem latchFault_rstCnt : (latchFault x s).rstCnt = s.rstCnt := rfl
@[simp] theorem latchFault_initDone : (latchFault x s).initDone = s.initDone := rfl
@[simp] theorem latchFault_channel : (latchFault x s).channel = s.channel := rfl
@[simp] theorem latchFault_dmaRun : (latchFault x s).dmaRun = s.dmaRun := rfl
@[simp] theorem latchFault_rdPtr : (latchFault x s).rdPtr = s.rdPtr := rfl
@[simp] theorem latchFault_evtPend : (latchFault x s).evtPend = s.evtPend := rfl
@[simp] theorem latchFault_fault : (latchFault x s).fault = true := rfl
@[simp] theorem latchFault_faultCause : (latchFault x s).faultCause = x := rfl
@[simp] theorem latchFault_outDuty : (latchFault x s).outDuty = s.outDuty := rfl
@[simp] theorem latchFault_rspStatus : (latchFault x s).rspStatus = s.rspStatus := rfl
@[simp] theorem latchFault_rspData : (latchFault x s).rspData = s.rspData := rfl
@[simp] theorem latchFault_bulk : (latchFault x s).bulk = s.bulk := rfl
@[simp] theorem latchFault_inputs : (latchFault x s).inputs = s.inputs := rfl
@[simp] theorem latchFault_trace : (latchFault x s).trace = s.trace := rfl

end

section
variable (s : State) (x : Status)

@[simp] theorem answer_cfg : (answer x s).cfg = s.cfg := rfl
@[simp] theorem answer_mem : (answer x s).mem = s.mem := rfl
@[simp] theorem answer_prog : (answer x s).prog = s.prog := rfl
@[simp] theorem answer_opFlags : (answer x s).opFlags = s.opFlags := rfl
@[simp] theorem answer_rstCnt : (answer x s).rstCnt = s.rstCnt := rfl
@[simp] theorem answer_initDone : (answer x s).initDone = s.initDone := rfl
@[simp] theorem answer_channel : (answer x s).channel = s.channel := rfl
@[simp] theorem answer_dmaRun : (answer x s).dmaRun = s.dmaRun := rfl
@[simp] theorem answer_rdPtr : (answer x s).rdPtr = s.rdPtr := rfl
@[simp] theorem answer_evtPend : (answer x s).evtPend = s.evtPend := rfl
@[simp] theorem answer_fault : (answer x s).fault = s.fault := rfl
@[simp] theorem answer_faultCause : (answer x s).faultCause = s.faultCause := rfl
@[simp] theorem answer_outDuty : (answer x s).outDuty = s.outDuty := rfl
@[simp] theorem answer_rspStatus : (answer x s).rspStatus = x := rfl
@[simp] theorem answer_rspData : (answer x s).rspData = s.rspData := rfl
@[simp] theorem answer_bulk : (answer x s).bulk = s.bulk := rfl
@[simp] theorem answer_inputs : (answer x s).inputs = s.inputs := rfl
@[simp] theorem answer_trace : (answer x s).trace = s.trace := rfl

end

section
variable (s : State) (i : Nat) (c : Colour)

@[simp] theorem writeColor_cfg : (writeColor i c s).cfg = s.cfg := rfl
@[simp] theorem writeColor_mem : (writeColor i c s).mem = s.mem.setColor i c := rfl
@[simp] theorem writeColor_prog : (writeColor i c s).prog = s.prog := rfl
@[simp] theorem writeColor_opFlags : (writeColor i c s).opFlags = s.opFlags := rfl
@[simp] theorem writeColor_rstCnt : (writeColor i c s).rstCnt = s.rstCnt := rfl
@[simp] theorem writeColor_initDone : (writeColor i c s).initDone = s.initDone := rfl
@[simp] theorem writeColor_channel : (writeColor i c s).channel = s.channel := rfl
@[simp] theorem writeColor_dmaRun : (writeColor i c s).dmaRun = s.dmaRun := rfl
@[simp] theorem writeColor_rdPtr : (writeColor i c s).rdPtr = s.rdPtr := rfl
@[simp] theorem writeColor_evtPend : (writeColor i c s).evtPend = s.evtPend := rfl
@[simp] theorem writeColor_fault : (writeColor i c s).fault = s.fault := rfl
@[simp] theorem writeColor_faultCause : (writeColor i c s).faultCause = s.faultCause := rfl
@[simp] theorem writeColor_outDuty : (writeColor i c s).outDuty = s.outDuty := rfl
@[simp] theorem writeColor_rspStatus : (writeColor i c s).rspStatus = s.rspStatus := rfl
@[simp] theorem writeColor_rspData : (writeColor i c s).rspData = s.rspData := rfl
@[simp] theorem writeColor_bulk : (writeColor i c s).bulk = s.bulk := rfl
@[simp] theorem writeColor_inputs : (writeColor i c s).inputs = s.inputs := rfl
@[simp] theorem writeColor_trace : (writeColor i c s).trace = s.trace := rfl

end

section
variable (s : State) (i : Nat)

@[simp] theorem encodeLed_cfg : (encodeLed i s).cfg = s.cfg := rfl
@[simp] theorem encodeLed_mem : (encodeLed i s).mem = s.mem.writeRun (wrPos s.cfg i) (encodePulses s.cfg (s.mem.colorAt i)) := rfl
@[simp] theorem encodeLed_prog : (encodeLed i s).prog = s.prog := rfl
@[simp] theorem encodeLed_opFlags : (encodeLed i s).opFlags = s.opFlags := rfl
@[simp] theorem encodeLed_rstCnt : (encodeLed i s).rstCnt = s.rstCnt := rfl
@[simp] theorem encodeLed_initDone : (encodeLed i s).initDone = s.initDone := rfl
@[simp] theorem encodeLed_channel : (encodeLed i s).channel = s.channel := rfl
@[simp] theorem encodeLed_dmaRun : (encodeLed i s).dmaRun = s.dmaRun := rfl
@[simp] theorem encodeLed_rdPtr : (encodeLed i s).rdPtr = s.rdPtr := rfl
@[simp] theorem encodeLed_evtPend : (encodeLed i s).evtPend = s.evtPend := rfl
@[simp] theorem encodeLed_fault : (encodeLed i s).fault = s.fault := rfl
@[simp] theorem encodeLed_faultCause : (encodeLed i s).faultCause = s.faultCause := rfl
@[simp] theorem encodeLed_outDuty : (encodeLed i s).outDuty = s.outDuty := rfl
@[simp] theorem encodeLed_rspStatus : (encodeLed i s).rspStatus = s.rspStatus := rfl
@[simp] theorem encodeLed_rspData : (encodeLed i s).rspData = s.rspData := rfl
@[simp] theorem encodeLed_bulk : (encodeLed i s).bulk = s.bulk := rfl
@[simp] theorem encodeLed_inputs : (encodeLed i s).inputs = s.inputs := rfl
@[simp] theorem encodeLed_trace : (encodeLed i s).trace = s.trace := rfl

end

section
variable (s : State) (h : Half)

@[simp] theorem zeroHalf_cfg : (zeroHalf h s).cfg = s.cfg := rfl
@[simp] theorem zeroHalf_mem : (zeroHalf h s).mem = s.mem.writeRun (halfBase s.cfg h) (List.replicate s.cfg.halfLen dutyIdle) := rfl
@[simp] theorem zeroHalf_prog : (zeroHalf h s).prog = s.prog := rfl
@[simp] theorem zeroHalf_opFlags : (zeroHalf h s).opFlags = s.opFlags := rfl
@[simp] theorem zeroHalf_rstCnt : (zeroHalf h s).rstCnt = s.rstCnt := rfl
@[simp] theorem zeroHalf_initDone : (zeroHalf h s).initDone = s.initDone := rfl
@[simp] theorem zeroHalf_channel : (zeroHalf h s).channel = s.channel := rfl
@[simp] theorem zeroHalf_dmaRun : (zeroHalf h s).dmaRun = s.dmaRun := rfl
@[simp] theorem zeroHalf_rdPtr : (zeroHalf h s).rdPtr = s.rdPtr := rfl
@[simp] theorem zeroHalf_evtPend : (zeroHalf h s).evtPend = s.evtPend := rfl
@[simp] theorem zeroHalf_fault : (zeroHalf h s).fault = s.fault := rfl
@[simp] theorem zeroHalf_faultCause : (zeroHalf h s).faultCause = s.faultCause := rfl
@[simp] theorem zeroHalf_outDuty : (zeroHalf h s).outDuty = s.outDuty := rfl
@[simp] theorem zeroHalf_rspStatus : (zeroHalf h s).rspStatus = s.rspStatus := rfl
@[simp] theorem zeroHalf_rspData : (zeroHalf h s).rspData = s.rspData := rfl
@[simp] theorem zeroHalf_bulk : (zeroHalf h s).bulk = s.bulk := rfl
@[simp] theorem zeroHalf_inputs : (zeroHalf h s).inputs = s.inputs := rfl
@[simp] theorem zeroHalf_trace : (zeroHalf h s).trace = s.trace := rfl

end

section
variable (s : State)

@[simp] theorem startStream_cfg : (startStream s).cfg = s.cfg := rfl
@[simp] theorem startStream_mem : (startStream s).mem = s.mem := rfl
@[simp] theorem startStream_prog : (startStream s).prog = s.prog := rfl
@[simp] theorem startStream_opFlags : (startStream s).opFlags = s.opFlags := rfl
@[simp] theorem startStream_rstCnt : (startStream s).rstCnt = s.rstCnt := rfl
@[simp] theorem startStream_initDone : (startStream s).initDone = s.initDone := rfl
@[simp] theorem startStream_channel : (startStream s).channel = s.channel := rfl
@[simp] theorem startStream_dmaRun : (startStream s).dmaRun = true := rfl
@[simp] theorem startStream_rdPtr : (startStream s).rdPtr = 0 := rfl
@[simp] theorem startStream_evtPend : (startStream s).evtPend = s.evtPend := rfl
@[simp] theorem startStream_fault : (startStream s).fault = s.fault := rfl
@[simp] theorem startStream_faultCause : (startStream s).faultCause = s.faultCause := rfl
@[simp] theorem startStream_outDuty : (startStream s).outDuty = s.outDuty := rfl
@[simp] theorem startStream_rspStatus : (startStream s).rspStatus = s.rspStatus := rfl
@[simp] theorem startStream_rspData : (startStream s).rspData = s.rspData := rfl
@[simp] theorem startStream_bulk : (startStream s).bulk = s.bulk := rfl
@[simp] theorem startStream_inputs : (startStream s).inputs = s.inputs := rfl
@[simp] theorem startStream_trace : (startStream s).trace = [] := rfl

end

section
variable (s : State)

@[simp] theorem stopStream_cfg : (stopStream s).cfg = s.cfg := rfl
@[simp] theorem stopStream_mem : (stopStream s).mem = s.mem := rfl
@[simp] theorem stopStream_prog : (stopStream s).prog = s.prog := rfl
@[simp] theorem stopStream_opFlags : (stopStream s).opFlags = s.opFlags := rfl
@[simp] theorem stopStream_rstCnt : (stopStream s).rstCnt = s.rstCnt := rfl
@[simp] theorem stopStream_initDone : (stopStream s).initDone = s.initDone := rfl
@[simp] theorem stopStream_channel : (stopStream s).channel = s.channel := rfl
@[simp] theorem stopStream_dmaRun : (stopStream s).dmaRun = false := rfl
@[simp] theorem stopStream_rdPtr : (stopStream s).rdPtr = s.rdPtr := rfl
@[simp] theorem stopStream_evtPend : (stopStream s).evtPend = s.evtPend := rfl
@[simp] theorem stopStream_fault : (stopStream s).fault = s.fault := rfl
@[simp] theorem stopStream_faultCause : (stopStream s).faultCause = s.faultCause := rfl
@[simp] theorem stopStream_outDuty : (stopStream s).outDuty = dutyIdle := rfl
@[simp] theorem stopStream_rspStatus : (stopStream s).rspStatus = s.rspStatus := rfl
@[simp] theorem stopStream_rspData : (stopStream s).rspData = s.rspData := rfl
@[simp] theorem stopStream_bulk : (stopStream s).bulk = s.bulk := rfl
@[simp] theorem stopStream_inputs : (stopStream s).inputs = s.inputs := rfl
@[simp] theorem stopStream_trace : (stopStream s).trace = s.trace := rfl

end

section
variable (s : State) (d : Duty)

@[simp] theorem streamOut_cfg : (streamOut d s).cfg = s.cfg := rfl
@[simp] theorem streamOut_mem : (streamOut d s).mem = s.mem := rfl
@[simp] theorem streamOut_prog : (streamOut d s).prog = s.prog := rfl
@[simp] theorem streamOut_opFlags : (streamOut d s).opFlags = s.opFlags := rfl
@[simp] theorem streamOut_rstCnt : (streamOut d s).rstCnt = s.rstCnt := rfl
@[simp] theorem streamOut_initDone : (streamOut d s).initDone = s.initDone := rfl
@[simp] theorem streamOut_channel : (streamOut d s).channel = s.channel := rfl
@[simp] theorem streamOut_dmaRun : (streamOut d s).dmaRun = s.dmaRun := rfl
@[simp] theorem streamOut_rdPtr : (streamOut d s).rdPtr = (s.rdPtr + 1) % s.cfg.bufLen := rfl
@[simp] theorem streamOut_evtPend : (streamOut d s).evtPend = s.evtPend := rfl
@[simp] theorem streamOut_fault : (streamOut d s).fault = s.fault := rfl
@[simp] theorem streamOut_faultCause : (streamOut d s).faultCause = s.faultCause := rfl
@[simp] theorem streamOut_outDuty : (streamOut d s).outDuty = d := rfl
@[simp] theorem streamOut_rspStatus : (streamOut d s).rspStatus = s.rspStatus := rfl
@[simp] theorem streamOut_rspData : (streamOut d s).rspData = s.rspData := rfl
@[simp] theorem streamOut_bulk : (streamOut d s).bulk = s.bulk := rfl
@[simp] theorem streamOut_inputs : (streamOut d s).inputs = s.inputs := rfl
@[simp] theorem streamOut_trace : (streamOut d s).trace = s.trace ++ [d] := rfl

end

section
variable (s : State)

@[simp] theorem stopCase_cfg : (stopCase s).cfg = s.cfg := rfl
@[simp] theorem stopCase_mem : (stopCase s).mem = s.mem := rfl
@[simp] theorem stopCase_prog : (stopCase s).prog = 0 := rfl
@[simp] theorem stopCase_opFlags : (stopCase s).opFlags = flagsIdle := rfl
@[simp] theorem stopCase_rstCnt : (stopCase s).rstCnt = 0 := rfl
@[simp] theorem stopCase_initDone : (stopCase s).initDone = s.initDone := rfl
@[simp] theorem stopCase_channel : (stopCase s).channel = s.channel := rfl
@[simp] theorem stopCase_dmaRun : (stopCase s).dmaRun = false := rfl
@[simp] theorem stopCase_rdPtr : (stopCase s).rdPtr = s.rdPtr := rfl
@[simp] theorem stopCase_evtPend : (stopCase s).evtPend = s.evtPend := rfl
@[simp] theorem stopCase_fault : (stopCase s).fault = s.fault := rfl
@[simp] theorem stopCase_faultCause : (stopCase s).faultCause = s.faultCause := rfl
@[simp] theorem stopCase_outDuty : (stopCase s).outDuty = dutyIdle := rfl
@[simp] theorem stopCase_rspStatus : (stopCase s).rspStatus = s.rspStatus := rfl
@[simp] theorem stopCase_rspData : (stopCase s).rspData = s.rspData := rfl
@[simp] theorem stopCase_bulk : (stopCase s).bulk = s.bulk := rfl
@[simp] theorem stopCase_inputs : (stopCase s).inputs = s.inputs := rfl
@[simp] theorem stopCase_trace : (stopCase s).trace = s.trace := rfl

end

section
variable (s : State)

@[simp] theorem beginStream_cfg : (beginStream s).cfg = s.cfg := rfl
@[simp] theorem beginStream_mem : (beginStream s).mem = s.mem := rfl
@[simp] theorem beginStream_prog : (beginStream s).prog = 2 * s.cfg.batch := rfl
@[simp] theorem beginStream_opFlags : (beginStream s).opFlags = withUpdating s.opFlags := rfl
@[simp] theorem beginStream_rstCnt : (beginStream s).rstCnt = s.rstCnt := rfl
@[simp] theorem beginStream_initDone : (beginStream s).initDone = s.initDone := rfl
@[simp] theorem beginStream_channel : (beginStream s).channel = s.channel := rfl
@[simp] theorem beginStream_dmaRun : (beginStream s).dmaRun = true := rfl
@[simp] theorem beginStream_rdPtr : (beginStream s).rdPtr = 0 := rfl
@[simp] theorem beginStream_evtPend : (beginStream s).evtPend = s.evtPend := rfl
@[simp] theorem beginStream_fault : (beginStream s).fault = s.fault := rfl
@[simp] theorem beginStream_faultCause : (beginStream s).faultCause = s.faultCause := rfl
@[simp] theorem beginStream_outDuty : (beginStream s).outDuty = s.outDuty := rfl
@[simp] theorem beginStream_rspStatus : (beginStream s).rspStatus = .ok := rfl
@[simp] theorem beginStream_rspData : (beginStream s).rspData = s.rspData := rfl
@[simp] theorem beginStream_bulk : (beginStream s).bulk = s.bulk := rfl
@[simp] theorem beginStream_inputs : (beginStream s).inputs = s.inputs := rfl
@[simp] theorem beginStream_trace : (beginStream s).trace = [] := rfl

end

end Sys2Proof.Machine
end

