-- ==== Sys2Proof/Laws/Ops.lean ====
section
/-! SUPPORT. For each shared operation, once, everything it can do. -/

namespace Sys2Proof

@[simp] theorem bitsPerLed_eq : bitsPerLed = 24 := rfl

theorem Config.halfLen_eq (c : Config) : c.halfLen = 24 * c.batch := rfl

theorem Config.bufLen_eq (c : Config) : c.bufLen = 48 * c.batch := rfl

theorem Config.bufLen_eq_two_halves (c : Config) : c.bufLen = 2 * c.halfLen := by
  simp only [bufLen_eq, halfLen_eq]
  omega

namespace Machine

/-! ### Encoding -/

@[simp] theorem length_encodePulses (c : Config) (x : Colour) : (encodePulses c x).length = 24 := by
  simp [encodePulses]

/-- R120: position `j` holds the symbol of bit `23 - j`. -/
theorem getElem?_encodePulses (c : Config) (x : Colour) {j : Nat} (h : j < 24) :
    (encodePulses c x)[j]? = some (symbol c ((wireWord x).getLsbD (23 - j))) := by
  simp [encodePulses, h]

/-! ### Enabling -/

theorem accept_of_ready {s : State} (h : TaskReady s) (f : State → State) : accept f s = f s :=
  if_pos h

theorem accept_of_not_ready {s : State} (h : ¬ TaskReady s) (f : State → State) : accept f s = s :=
  if_neg h

theorem takeEvent_of_enabled {s : State} {e : Event} (h : EventEnabled e s) :
    takeEvent e s = handle e (clearPending s) := if_pos h

theorem takeEvent_of_not_enabled {s : State} {e : Event} (h : ¬ EventEnabled e s) :
    takeEvent e s = s := if_neg h

/-- A pending latch is cleared in the closed view and nothing else changes. -/
theorem clearPending_eq (s : State) :
    clearPending s = { s with evtPend := (clearPending s).evtPend } := by
  unfold clearPending
  split <;> rfl

theorem clearPending_closed {s : State} (h : s.cfg.view = .closedView) :
    clearPending s = { s with evtPend := none } := if_pos h

/-! ### Refill -/

/-- The write position is a multiple of 24 that leaves room for one LED (R131, R135). -/
theorem wrPos_eq (c : Config) (led : Nat) : wrPos c led = 24 * (led % (2 * c.batch)) := by
  rw [wrPos, Config.bufLen_eq, bitsPerLed_eq, Nat.mul_comm led 24,
    show 48 * c.batch = 24 * (2 * c.batch) by omega, Nat.mul_mod_mul_left]

theorem wrPos_room {c : Config} (h : 0 < c.batch) (led : Nat) : wrPos c led + 24 ≤ c.bufLen := by
  rw [wrPos_eq, Config.bufLen_eq]
  have := Nat.mod_lt led (show 0 < 2 * c.batch by omega)
  omega

/-- Everything a refill can do: it changes `buf`, and if it ends the step, it has latched a contract violation. -/
theorem refillLoop_cases (led n : Nat) (s : State) :
    (∃ m, refillLoop led n s = .goesOn { s with mem := { color := s.mem.color, buf := m } }) ∨
    (∃ m, refillLoop led n s =
      .ended (latchFault .contractViolation { s with mem := { color := s.mem.color, buf := m } })) := by
  induction n generalizing led s with
  | zero => exact .inl ⟨s.mem.buf, rfl⟩
  | succ n ih =>
    rw [refillLoop]
    split
    · have he : encodeLed led s = { s with mem := { color := s.mem.color, buf := (encodeLed led s).mem.buf } } := by
        have hc : (encodeLed led s).mem.color = s.mem.color := by simp
        have hm : (encodeLed led s).mem = { color := s.mem.color, buf := (encodeLed led s).mem.buf } := by
          rw [← hc]
        rw [← hm]
        rfl
      rcases ih (led + 1) (encodeLed led s) with ⟨m, h⟩ | ⟨m, h⟩
      · exact .inl ⟨m, by rw [h, he]⟩
      · exact .inr ⟨m, by rw [h, he]⟩
    · exact .inr ⟨s.mem.buf, rfl⟩

/-- Everything a refill can do, its entry test included (R132). -/
theorem refill_cases (start n : Nat) (s : State) :
    (∃ m, refill start n s = .goesOn { s with mem := { color := s.mem.color, buf := m } }) ∨
    (∃ m, refill start n s =
      .ended (latchFault .contractViolation { s with mem := { color := s.mem.color, buf := m } })) := by
  unfold refill
  split
  · exact refillLoop_cases start n s
  · exact .inr ⟨s.mem.buf, rfl⟩

/-- A refill keeps the canonical form of the memories. -/
theorem refillLoop_wf (led n : Nat) (s : State) (hb : 0 < s.cfg.batch) (h : s.mem.wf s.cfg) :
    (refillLoop led n s).final.mem.wf s.cfg := by
  induction n generalizing led s with
  | zero => exact h
  | succ n ih =>
    rw [refillLoop]
    split
    · exact ih (led + 1) (encodeLed led s) hb
        (Memory.wf_writeRun h (by simpa using wrPos_room hb led))
    · exact h

theorem refill_wf (start n : Nat) (s : State) (hb : 0 < s.cfg.batch) (h : s.mem.wf s.cfg) :
    (refill start n s).final.mem.wf s.cfg := by
  unfold refill
  split
  · exact refillLoop_wf start n s hb h
  · exact h

theorem zeroHalf_wf (e : Half) (s : State) (h : s.mem.wf s.cfg) : (zeroHalf e s).mem.wf s.cfg := by
  refine Memory.wf_writeRun h ?_
  have := s.cfg.bufLen_eq_two_halves
  cases e <;> simp only [halfBase, List.length_replicate] <;> omega

/-! ### The stream port -/

/-- Everything raising an event can do (R174): nothing in a fault, the overrun fault, or the latch. -/
theorem raiseEvent_cases (e : Event) (s : State) :
    (s.fault = true ∧ raiseEvent e s = s) ∨
    (s.fault = false ∧ s.evtPend ≠ none ∧ raiseEvent e s = latchFault .overrun s) ∨
    (s.fault = false ∧ s.evtPend = none ∧ raiseEvent e s = { s with evtPend := some e }) := by
  unfold raiseEvent
  split
  case isTrue h => exact .inl ⟨h, rfl⟩
  case isFalse h =>
    have hf : s.fault = false := by simpa using h
    split
    case isTrue hp => exact .inr (.inl ⟨hf, hp, rfl⟩)
    case isFalse hp => exact .inr (.inr ⟨hf, by simpa using hp, rfl⟩)

/-- Everything a read tick can do when it answers a next state (R175). -/
theorem execRdTick_cases {s t : State} (h : execRdTick s = .next t) :
    (¬ TickEnabled s ∧ t = s) ∨
    (TickEnabled s ∧ s.rdPtr < s.cfg.bufLen ∧
      ∃ d, s.mem.bufAt s.rdPtr = some d ∧ t = boundaryEvent (streamOut d s)) := by
  unfold execRdTick at h
  split at h
  case isTrue he =>
    split at h
    case isTrue hp =>
      cases hd : s.mem.bufAt s.rdPtr with
      | none => simp [hd] at h
      | some d =>
        simp only [hd, Host.Outcome.next.injEq] at h
        exact .inr ⟨he, hp, d, rfl, h.symm⟩
    case isFalse hp => cases h
  case isFalse he => exact .inl ⟨he, (Host.Outcome.next.inj h).symm⟩

/-! ### The state machine -/

/-- The three cases of an event, in their priority (R140, R142). -/
theorem handle_cases (e : Event) (s : State) :
    (dmaStopBit s.opFlags = true ∧ handle e s = stopCase s) ∨
    (dmaStopBit s.opFlags = false ∧ resetSignalBit s.opFlags = true ∧ handle e s = gapCase e s) ∨
    (dmaStopBit s.opFlags = false ∧ resetSignalBit s.opFlags = false ∧ handle e s = streamCase s) := by
  unfold handle
  cases hd : dmaStopBit s.opFlags <;> cases hr : resetSignalBit s.opFlags <;> simp

/-! ### The step -/

/-- A step is the operation fetched, or is done with the fetch. -/
theorem step_cases (s : State) :
    (∃ i t, fetch s = .operation i t ∧ step s = exec i t) ∨ (∃ t, fetch s = .done t ∧ step s = .next t) := by
  unfold step
  cases h : fetch s with
  | operation i t => exact .inl ⟨i, t, rfl, rfl⟩
  | done t => exact .inr ⟨t, rfl, rfl⟩

/-- Running one step more is running from the state that the first step answers. -/
theorem run_succ_of_next {s t : State} (h : step s = .next t) (k : Nat) :
    core.run (k + 1) s = core.run k t := by
  have hs : core.step s = .next t := h
  simp only [Host.Core.run, hs]

/-- A handled event is an operation that always answers. -/
theorem exec_onHt (s : State) : exec .onHt s = .next (takeEvent .ht s) := rfl

theorem exec_onTc (s : State) : exec .onTc s = .next (takeEvent .tc s) := rfl

end Machine

end Sys2Proof
end

