-- ==== Sys2Proof/Laws/Inversion.lean ====
section
/-! SUPPORT. For each kind of operation and for a step, once, everything it can do when it answers a next state. A proof about every step
takes these cases apart and unfolds no meaning. -/

namespace Sys2Proof.Machine

/-! ### The writers of the buffer -/

/-- Encoding one LED changes the buffer and nothing else (R130). -/
theorem encodeLed_frame (led : Nat) (s : State) :
    encodeLed led s = { s with mem := { color := s.mem.color, buf := (encodeLed led s).mem.buf } } := by
  have hc : (encodeLed led s).mem.color = s.mem.color := by simp
  have hm : (encodeLed led s).mem = { color := s.mem.color, buf := (encodeLed led s).mem.buf } := by rw [← hc]
  rw [← hm]
  rfl

/-- Zeroing a half changes the buffer and nothing else (R134). -/
theorem zeroHalf_frame (h : Half) (s : State) :
    zeroHalf h s = { s with mem := { color := s.mem.color, buf := (zeroHalf h s).mem.buf } } := by
  have hc : (zeroHalf h s).mem.color = s.mem.color := by simp [zeroHalf]
  have hm : (zeroHalf h s).mem = { color := s.mem.color, buf := (zeroHalf h s).mem.buf } := by rw [← hc]
  rw [← hm]
  rfl

/-- The streaming case counts a batch after a refill that goes on, or stops at the latched fault (R143, R132). -/
theorem streamCase_cases (s : State) :
    (∃ m, streamCase s = countBatch { s with mem := { color := s.mem.color, buf := m } }) ∨
    (∃ m, streamCase s = latchFault .contractViolation { s with mem := { color := s.mem.color, buf := m } }) := by
  rcases refill_cases s.prog s.cfg.batch s with ⟨m, h⟩ | ⟨m, h⟩
  · exact .inl ⟨m, by rw [streamCase, h]; rfl⟩
  · exact .inr ⟨m, by rw [streamCase, h]; rfl⟩

/-- Everything the body of `UPDATE` can do (R162, R163, R165). -/
theorem updateBody_cases (s : State) :
    updateBody s = answer .notInit s ∨ updateBody s = answer .ok s ∨
    (s.initDone = true ∧ updatingBit s.opFlags = false ∧
      ∃ m, updateBody s = beginStream { s with mem := { color := s.mem.color, buf := m } }) ∨
    (updatingBit s.opFlags = false ∧
      ∃ m, updateBody s = latchFault .contractViolation { s with mem := { color := s.mem.color, buf := m } }) := by
  unfold updateBody
  by_cases hi : s.initDone = false
  · simp [hi]
  rw [if_neg hi]
  by_cases hu : updatingBit s.opFlags = true
  · simp [hu]
  rw [if_neg hu]
  refine .inr (.inr ?_)
  rcases refill_cases 0 s.cfg.batch s with ⟨m, h⟩ | ⟨m, h⟩
  · rw [h]
    simp only [Flow.andThen]
    rcases refill_cases s.cfg.batch s.cfg.batch { s with mem := { color := s.mem.color, buf := m } } with
      ⟨m', h'⟩ | ⟨m', h'⟩
    · exact .inl ⟨by simpa using hi, by simpa using hu, m', by rw [h']; rfl⟩
    · exact .inr ⟨by simpa using hu, m', by rw [h']; rfl⟩
  · exact .inr ⟨by simpa using hu, m, by rw [h]; rfl⟩

/-! ### Events -/

/-- Handling an event is an operation that always answers. -/
theorem exec_eventInstr (e : Event) (s : State) : exec (eventInstr e) s = .next (takeEvent e s) := by
  cases e <;> rfl

/-- The latch is `latchAfter` once the event is taken (R147, R148). -/
theorem clearPending_eq_latchAfter (s : State) : clearPending s = { s with evtPend := latchAfter s } := by
  unfold clearPending latchAfter
  cases h : s.cfg.view <;> rfl

/-- What handling event `e` does to `s` (R140, R190). -/
inductive EventCase (e : Event) (s t : State) : Prop
  | notEnabled : ¬ EventEnabled e s → t = s → EventCase e s t
  | stop : EventEnabled e s → dmaStopBit s.opFlags = true → t = stopCase { s with evtPend := latchAfter s } →
      EventCase e s t
  | gap : ∀ m, EventEnabled e s →
      t = countGap { s with evtPend := latchAfter s, mem := { color := s.mem.color, buf := m } } → EventCase e s t
  | stream : ∀ m, EventEnabled e s →
      t = countBatch { s with evtPend := latchAfter s, mem := { color := s.mem.color, buf := m } } → EventCase e s t
  | faulted : ∀ m, EventEnabled e s →
      t = latchFault .contractViolation
        { s with evtPend := latchAfter s, mem := { color := s.mem.color, buf := m } } → EventCase e s t

theorem takeEvent_cases (e : Event) (s : State) : EventCase e s (takeEvent e s) := by
  by_cases he : EventEnabled e s
  · rw [takeEvent_of_enabled he, clearPending_eq_latchAfter]
    rcases handle_cases e { s with evtPend := latchAfter s } with ⟨hd, h⟩ | ⟨-, -, h⟩ | ⟨-, -, h⟩
    · exact .stop he hd h
    · exact .gap _ he (by rw [h, gapCase, zeroHalf_frame])
    · rcases streamCase_cases { s with evtPend := latchAfter s } with ⟨m, h'⟩ | ⟨m, h'⟩
      · exact .stream m he (by rw [h, h'])
      · exact .faulted m he (by rw [h, h'])
  · exact .notEnabled he (takeEvent_of_not_enabled he)

/-! ### The read tick -/

/-- What a read tick that answers a next state does to `s` (R174, R175). -/
inductive TickCase (s t : State) : Prop
  | notEnabled : ¬ TickEnabled s → t = s → TickCase s t
  | quiet : ∀ d, TickEnabled s → s.rdPtr < s.cfg.bufLen → s.mem.bufAt s.rdPtr = some d →
      s.fault = true ∨ ((streamOut d s).rdPtr ≠ s.cfg.halfLen ∧ (streamOut d s).rdPtr ≠ 0) →
      t = streamOut d s → TickCase s t
  | raised : ∀ d e, TickEnabled s → s.rdPtr < s.cfg.bufLen → s.mem.bufAt s.rdPtr = some d →
      s.fault = false → s.evtPend = none →
      (e = .ht ∧ (streamOut d s).rdPtr = s.cfg.halfLen) ∨ (e = .tc ∧ (streamOut d s).rdPtr = 0) →
      t = { streamOut d s with evtPend := some e } → TickCase s t
  | overrun : ∀ d, TickEnabled s → s.rdPtr < s.cfg.bufLen → s.mem.bufAt s.rdPtr = some d →
      s.fault = false → s.evtPend ≠ none → t = latchFault .overrun (streamOut d s) → TickCase s t

theorem rdTick_cases {s t : State} (h : exec .rdTick s = .next t) : TickCase s t := by
  rcases execRdTick_cases h with ⟨he, h⟩ | ⟨he, hp, d, hd, rfl⟩
  · exact .notEnabled he h
  rw [boundaryEvent]
  by_cases q : (streamOut d s).rdPtr = (streamOut d s).cfg.halfLen
  · rw [if_pos q]
    rcases raiseEvent_cases .ht (streamOut d s) with ⟨a, b⟩ | ⟨a, b, c⟩ | ⟨a, b, c⟩
    · exact .quiet d he hp hd (.inl a) b
    · exact .overrun d he hp hd a b c
    · exact .raised d .ht he hp hd a b (.inl ⟨rfl, q⟩) c
  rw [if_neg q]
  by_cases q' : (streamOut d s).rdPtr = 0
  · rw [if_pos q']
    rcases raiseEvent_cases .tc (streamOut d s) with ⟨a, b⟩ | ⟨a, b, c⟩ | ⟨a, b, c⟩
    · exact .quiet d he hp hd (.inl a) b
    · exact .overrun d he hp hd a b c
    · exact .raised d .tc he hp hd a b (.inr ⟨rfl, q'⟩) c
  rw [if_neg q']
  exact .quiet d he hp hd (.inr ⟨q, q'⟩) rfl

/-! ### Commands -/

/-- What one step of a bulk command does to `s` (R58, R111). -/
inductive BulkCase (k : Bulk) (s t : State) : Prop
  | more : k.next + 1 < s.cfg.ledCount →
      t = { writeColor k.next k.colour s with bulk := some { k with next := k.next + 1 } } → BulkCase k s t
  | last : k.next + 1 = s.cfg.ledCount →
      t = answer .ok { writeColor k.next k.colour s with bulk := none } → BulkCase k s t
  | past : s.cfg.ledCount ≤ k.next → t = answer .ok { s with bulk := none } → BulkCase k s t

theorem bulkStep_cases (k : Bulk) (s : State) : BulkCase k s (bulkStep k s) := by
  unfold bulkStep
  by_cases h : k.next + 1 < s.cfg.ledCount
  · rw [if_pos h]
    exact .more h rfl
  rw [if_neg h]
  by_cases h' : k.next < s.cfg.ledCount
  · rw [if_pos h']
    exact .last (by omega) rfl
  · rw [if_neg h']
    exact .past (by omega) rfl

/-- A step of a bulk command writes colours, the field `bulk` and the response, and nothing else. -/
theorem BulkCase.frame {k : Bulk} {s t : State} (h : BulkCase k s t) :
    ∃ m b r, t = { s with mem := { color := m, buf := s.mem.buf }, bulk := b, rspStatus := r } := by
  cases h with
  | more _ h => exact ⟨(s.mem.setColor k.next k.colour).color, _, s.rspStatus, h⟩
  | last _ h => exact ⟨(s.mem.setColor k.next k.colour).color, none, .ok, h⟩
  | past _ h => exact ⟨s.mem.color, none, .ok, h⟩

/-- What a command does to `s` (R110 to R113, R160, R162). -/
inductive CommandCase (i : Instr) (s t : State) : Prop
  | notAccepted : ¬ TaskReady s → t = s → CommandCase i s t
  | answered : ∀ x, TaskReady s → t = answer x s → CommandCase i s t
  | inited : ∀ ch, i = .init ch → TaskReady s → s.initDone = false → s.cfg.ledCount % s.cfg.batch = 0 →
      t = answer .ok { s with channel := ch, initDone := true } → CommandCase i s t
  | colourSet : ∀ n c, TaskReady s → writesColours i = true → n < s.cfg.ledCount →
      t = answer .ok (writeColor n c s) → CommandCase i s t
  | bulkStarted : ∀ c, TaskReady s → writesColours i = true → BulkCase { colour := c, next := 0 } s t →
      CommandCase i s t
  | colourRead : ∀ idx d, i = .getColor idx → TaskReady s → t = answer .ok { s with rspData := d } →
      CommandCase i s t
  | streamStarted : ∀ m, i = .update → TaskReady s → s.initDone = true → updatingBit s.opFlags = false →
      t = beginStream { s with mem := { color := s.mem.color, buf := m } } → CommandCase i s t
  | updateFaulted : ∀ m, i = .update → TaskReady s → updatingBit s.opFlags = false →
      t = latchFault .contractViolation { s with mem := { color := s.mem.color, buf := m } } → CommandCase i s t

theorem command_cases {i : Instr} {s t : State} (hi : isCommand i = true) (h : exec i s = .next t) :
    CommandCase i s t := by
  by_cases hs : TaskReady s
  · cases i with
    | init ch =>
      simp only [exec, execInit, accept_of_ready hs, Host.Outcome.next.injEq] at h
      subst h
      unfold initBody
      by_cases h1 : s.initDone = true
      · rw [if_pos h1]
        exact .answered _ hs rfl
      rw [if_neg h1]
      by_cases h2 : s.cfg.bufLen % 2 ≠ 0 ∨ s.cfg.ledCount % s.cfg.batch ≠ 0
      · rw [if_pos h2]
        exact .answered _ hs rfl
      · rw [if_neg h2]
        exact .inited ch rfl hs (by simpa using h1) (by omega) rfl
    | setColor idx r g b =>
      simp only [exec, execSetColor, accept_of_ready hs, Host.Outcome.next.injEq] at h
      subst h
      unfold setColorBody
      by_cases h1 : ledIndex idx < s.cfg.ledCount
      · rw [if_pos h1]
        exact .colourSet _ _ hs rfl h1 rfl
      · rw [if_neg h1]
        exact .answered _ hs rfl
    | setAll r g b =>
      simp only [exec, execSetAll, accept_of_ready hs, Host.Outcome.next.injEq] at h
      subst h
      exact .bulkStarted _ hs rfl (bulkStep_cases _ _)
    | allOff =>
      simp only [exec, execAllOff, accept_of_ready hs, Host.Outcome.next.injEq] at h
      subst h
      exact .bulkStarted _ hs rfl (bulkStep_cases _ _)
    | update =>
      simp only [exec, execUpdate, accept_of_ready hs, Host.Outcome.next.injEq] at h
      subst h
      rcases updateBody_cases s with h | h | ⟨h1, h2, m, h⟩ | ⟨h1, m, h⟩
      · exact .answered _ hs h
      · exact .answered _ hs h
      · exact .streamStarted m rfl hs h1 h2 h
      · exact .updateFaulted m rfl hs h1 h
    | getColor idx =>
      simp only [exec, execGetColor, accept_of_ready hs, Host.Outcome.next.injEq] at h
      subst h
      unfold getColorBody
      by_cases h1 : ledIndex idx < s.cfg.ledCount
      · rw [if_pos h1]
        exact .colourRead idx _ rfl hs rfl
      · rw [if_neg h1]
        exact .answered _ hs rfl
    | onHt => cases hi
    | onTc => cases hi
    | rdTick => cases hi
  · refine .notAccepted hs ?_
    cases i <;>
      simp_all [isCommand, exec, execInit, execSetColor, execSetAll, execAllOff, execUpdate, execGetColor,
        accept_of_not_ready hs]

/-! ### Any operation, and a step -/

/-- What an operation that answers a next state is, and does to `s`. -/
inductive ExecCase (i : Instr) (s t : State) : Prop
  | command : isCommand i = true → CommandCase i s t → ExecCase i s t
  | event : ∀ e, i = eventInstr e → EventCase e s t → ExecCase i s t
  | tick : i = .rdTick → TickCase s t → ExecCase i s t

theorem exec_cases {i : Instr} {s t : State} (h : exec i s = .next t) : ExecCase i s t := by
  by_cases hi : isCommand i = true
  · exact .command hi (command_cases hi h)
  cases i with
  | onHt =>
    rw [exec_onHt, Host.Outcome.next.injEq] at h
    subst h
    exact .event .ht rfl (takeEvent_cases _ _)
  | onTc =>
    rw [exec_onTc, Host.Outcome.next.injEq] at h
    subst h
    exact .event .tc rfl (takeEvent_cases _ _)
  | rdTick => exact .tick rfl (rdTick_cases h)
  | _ => exact absurd rfl hi

/-- What a step that answers a next state does to `s` (R10, R37). -/
inductive StepCase (s t : State) : Prop
  | quiet : ∀ l, t = { s with inputs := l } → StepCase s t
  | reset : ∀ rest, s.inputs = .reset :: rest → t = hardReset rest s → StepCase s t
  | bulk : ∀ l k, s.fault = false → s.bulk = some k → BulkCase k { s with inputs := l } t → StepCase s t
  | illegal : ∀ l, TaskReady s → t = answer .illegalOp { s with inputs := l } → StepCase s t
  | ran : ∀ l i, exec i { s with inputs := l } = .next t → StepCase s t

theorem taskContinue_of_fault {s : State} (h : s.fault = true) : taskContinue s = s := by
  simp [taskContinue, h]

theorem taskContinue_of_none {s : State} (h : s.bulk = none) : taskContinue s = s := by
  simp [taskContinue, h]

theorem taskContinue_of_some {s : State} {k : Bulk} (hf : s.fault = false) (h : s.bulk = some k) :
    taskContinue s = bulkStep k s := by
  simp [taskContinue, h, hf]

theorem taskContinue_stepCase (s : State) (l : List Input) : StepCase s (taskContinue { s with inputs := l }) := by
  by_cases hf : s.fault = true
  · exact .quiet l (taskContinue_of_fault hf)
  have hf : s.fault = false := by simpa using hf
  rcases Option.eq_none_or_eq_some s.bulk with hb | ⟨k, hb⟩
  · exact .quiet l (taskContinue_of_none hb)
  · rw [taskContinue_of_some (s := { s with inputs := l }) hf hb]
    exact .bulk l k hf hb (bulkStep_cases _ _)

/-- What the word fetched for this step does (R85, R90). -/
theorem fetchWord_stepCase {s t : State} {l : List Input} {w : OpWord} {f : Fetched}
    (hf : fetchWord w { s with inputs := l } = f)
    (h : (match f with
      | .operation i u => exec i u
      | .done u => Host.Outcome.next u) = .next t) : StepCase s t := by
  subst hf
  unfold fetchWord at h
  cases hd : decode w with
  | ok i =>
    simp only [hd] at h
    exact .ran l i h
  | error x =>
    cases x with
    | noTick =>
      simp only [hd, Host.Outcome.next.injEq] at h
      exact .quiet l h.symm
    | reservedOp o =>
      simp only [hd, illegalOp, Host.Outcome.next.injEq] at h
      subst h
      by_cases hs : TaskReady { s with inputs := l }
      · rw [accept_of_ready hs]
        exact .illegal l hs rfl
      · rw [accept_of_not_ready hs]
        exact .quiet l rfl

theorem step_stepCase {s t : State} (h : step s = .next t) : StepCase s t := by
  unfold step fetch at h
  cases hin : s.inputs with
  | nil =>
    simp only [hin, Host.Outcome.next.injEq] at h
    exact .quiet s.inputs h.symm
  | cons x rest =>
    cases x with
    | reset =>
      simp only [hin, Host.Outcome.next.injEq] at h
      exact .reset rest hin h.symm
    | task =>
      simp only [hin, Host.Outcome.next.injEq] at h
      subst h
      exact taskContinue_stepCase s rest
    | irq =>
      simp only [hin] at h
      cases hp : pendingWord s with
      | none =>
        simp only [hp, Host.Outcome.next.injEq] at h
        exact .quiet rest h.symm
      | some w =>
        simp only [hp] at h
        exact fetchWord_stepCase rfl h
    | port w =>
      simp only [hin] at h
      by_cases hh : heldBack w s = true
      · rw [if_pos hh, Host.Outcome.next.injEq] at h
        subst h
        exact taskContinue_stepCase s s.inputs
      · rw [if_neg hh] at h
        exact fetchWord_stepCase rfl h

end Sys2Proof.Machine
end

