-- ==== Sys2Proof/Laws/PerInstr.lean ====
section
/-! SUPPORT. The per-instruction families of LAWS.json: a statement about every operation as syntax, one lemma per constructor. -/

namespace Sys2Proof.Laws

/-- The bits of a command word under the mask of the command rows are its op code (R82). -/
theorem packCmd_and_mask (op : Byte) (idx : BitVec 16) (r g b : Byte) :
    (packCmd op idx r g b).toNat &&& 0xFF0000000000 = (op ++ 0#40).toNat := by
  have hm : ∀ i < 48, (0xFF0000000000#48).getLsbD i = decide (40 ≤ i) := by decide
  have h : packCmd op idx r g b &&& 0xFF0000000000#48 = op ++ 0#40 := by
    refine BitVec.eq_of_getLsbD_eq fun i hi => ?_
    have ho : (op ++ 0#40).getLsbD i = if i < 40 then false else op.getLsbD (i - 40) := by
      rw [BitVec.getLsbD_append]
      simp
    have ho : ((op ++ 0#40 : BitVec 48)).getLsbD i = if i < 40 then false else op.getLsbD (i - 40) := ho
    rw [BitVec.getLsbD_and, hm i hi, getLsbD_packCmd, ho]
    by_cases h : 40 ≤ i
    · have h8 : ¬ i < 8 := by omega
      have h16 : ¬ i < 16 := by omega
      have h24 : ¬ i < 24 := by omega
      have h40 : ¬ i < 40 := by omega
      simp [h, h8, h16, h24, h40]
    · have h40 : i < 40 := by omega
      simp [h, h40]
  rw [← h]
  rfl

/-- A command word is one of the row with its op code, and of no other. -/
theorem holds_packCmd (row : OpcodeRow) (op : Byte) (idx : BitVec 16) (r g b : Byte)
    (hm : row.format = .cmd → row.mask = 0xFF0000000000) :
    row.holds (.cmd (packCmd op idx r g b)) = decide (row.format = .cmd ∧ (op ++ 0#40).toNat = row.pattern) := by
  unfold OpcodeRow.holds OpWord.bits
  by_cases hf : row.format = .cmd
  · rw [hm hf]
    simp only [packCmd_and_mask]
  · simp [hf]

/-- Every command row masks the op code. -/
theorem mask_of_cmd {row : OpcodeRow} (h : row ∈ opcodeRows) (hf : row.format = .cmd) :
    row.mask = 0xFF0000000000 := by
  have : ∀ row ∈ opcodeRows, row.format = .cmd → row.mask = 0xFF0000000000 := by decide
  exact this row h hf

/-- A command word belongs to exactly one row of the table if the rows with its op code are one. -/
theorem only_row_of_packCmd (op : Byte) (idx : BitVec 16) (r g b : Byte) (name : String)
    (h : (opcodeRows.filter fun row => decide (row.format = .cmd ∧ (op ++ 0#40).toNat = row.pattern)).map
      OpcodeRow.mnemonic = [name]) :
    (opcodeRows.filter fun row => row.holds (.cmd (packCmd op idx r g b))).map OpcodeRow.mnemonic = [name] := by
  rw [← h]
  refine congrArg _ (List.filter_congr fun row hr => ?_)
  exact holds_packCmd row op idx r g b (mask_of_cmd hr)

/-- The name of an operation (`opcode_table.json`). -/
def EncodeRow.name (i : Instr) : String :=
  match i with
  | .init _ => "INIT"
  | .setColor _ _ _ _ => "SET_COLOR"
  | .setAll _ _ _ => "SET_ALL"
  | .allOff => "ALL_OFF"
  | .update => "UPDATE"
  | .getColor _ => "GET_COLOR"
  | .onHt => "ON_HT"
  | .onTc => "ON_TC"
  | .rdTick => "RD_TICK"

/-- The word of the operation is one of its own row of the opcode table, and of no other row. -/
def EncodeRow.Statement (i : Instr) : Prop :=
  (opcodeRows.filter fun row => row.holds (encode i)).map OpcodeRow.mnemonic = [EncodeRow.name i]

theorem EncodeRow.init (ch : BitVec 16) : EncodeRow.Statement (.init ch) :=
  only_row_of_packCmd _ _ _ _ _ "INIT" (by decide)

theorem EncodeRow.setColor (idx : BitVec 16) (r g b : Byte) : EncodeRow.Statement (.setColor idx r g b) :=
  only_row_of_packCmd _ _ _ _ _ "SET_COLOR" (by decide)

theorem EncodeRow.setAll (r g b : Byte) : EncodeRow.Statement (.setAll r g b) :=
  only_row_of_packCmd _ _ _ _ _ "SET_ALL" (by decide)

theorem EncodeRow.allOff : EncodeRow.Statement .allOff := only_row_of_packCmd _ _ _ _ _ "ALL_OFF" (by decide)

theorem EncodeRow.update : EncodeRow.Statement .update := only_row_of_packCmd _ _ _ _ _ "UPDATE" (by decide)

theorem EncodeRow.getColor (idx : BitVec 16) : EncodeRow.Statement (.getColor idx) :=
  only_row_of_packCmd _ _ _ _ _ "GET_COLOR" (by decide)

theorem EncodeRow.onHt : EncodeRow.Statement .onHt := by
  unfold EncodeRow.Statement
  decide

theorem EncodeRow.onTc : EncodeRow.Statement .onTc := by
  unfold EncodeRow.Statement
  decide

theorem EncodeRow.rdTick : EncodeRow.Statement .rdTick := by
  unfold EncodeRow.Statement
  decide

end Sys2Proof.Laws
end

