-- ==== Sys2Proof/Tests/Slice0.lean ====
section
/-! SUPPORT. Tests, the expected values taken from `95_test_vectors.md` (its section in each comment), and for every statement with
hypotheses a state that meets them. -/

namespace Sys2Proof.Tests

open Sys2Proof Sys2Proof.Machine

/-! ### Helpers -/

/-- The configuration of program P1: N = 3, B = 1, T = 1, so `HALF_LEN` = 24 and L = 48. -/
def c3 : Config :=
  { ledCount := 3, batch := 1, period := 100, dutyHigh := 70, dutyLow := 35,
    resetIrqThreshold := 1, resetGapMin := 24, view := .closedView }

/-- A configuration with other N, B, T and view. -/
def conf (n b t : Nat) (v : View) : Config :=
  { c3 with ledCount := n, batch := b, resetIrqThreshold := t, view := v }

/-- Reset, with the inputs `l`. -/
def fresh (c : Config) (l : List Input) : State := { State.resetFor c with inputs := l }

/-- After `INIT 1`. -/
def ready (c : Config) : State := { State.resetFor c with initDone := true, channel := 1 }

/-- `k` entries from `p` on, all `d`. -/
def entries (p k : Nat) (d : Duty) : List (Nat × Duty) := (List.range k).map fun j => (p + j, d)

/-- A transmission in progress of LEDs that are all off, with the given flags and counters. -/
def busy (c : Config) (f : BitVec 3) (prog rst : Nat) : State :=
  { ready c with
    opFlags := f, prog := prog, rstCnt := rst, dmaRun := true,
    mem := { color := [], buf := entries 0 c.bufLen c.dutyLow } }

/-- P1 between steps 5 and 6, all LEDs off, the read port at entry `rd`. -/
def streaming (rd : Nat) (e : Option Event) : State := { busy c3 flagsStream 2 0 with rdPtr := rd, evtPend := e }

/-- The end of a transmission with T = 2, all LEDs off: the stop event has been raised and is 3 ticks late, so the trace is the frame and
`(T - 1) × HALF_LEN + 3` = 27 idle values (R178). -/
def stopping (l : List Input) : State :=
  { busy (conf 3 1 2 .closedView) flagsStopping 3 2 with
    rdPtr := 3, evtPend := some .tc, trace := List.replicate 72 35 ++ List.replicate 27 0,
    mem := { color := [], buf := entries 0 48 0 }, inputs := l }

/-- A bulk command in progress, LED `n` next. -/
def bulkAt (n : Nat) (l : List Input) : State := { fresh c3 l with bulk := some { colour := Colour.off, next := n } }

/-- Three events about to be fed to a transmission that has just started, in the open view. -/
def threeEvents : State :=
  { busy (conf 3 1 1 .openView) flagsStream 2 0 with
    inputs := [Event.ht, .tc, .ht].map fun e => .port (.evt (eventBit e)) }

/-- The next state of an outcome, if it is one. -/
def nextOf (o : Host.Outcome State Fault Refusal) : Option State :=
  match o with
  | .next s => some s
  | .fault _ => none
  | .refused _ => none

/-- One field of the next state. -/
def get {α : Type} (o : Host.Outcome State Fault Refusal) (f : State → α) : Option α := (nextOf o).map f

/-! ### Well-formedness: an ill-formed term for each check -/

theorem test_wf_accepts : c3.wellFormed = true ∧ c3.transmits = true ∧ Config.sample.transmits = true := by decide
theorem test_wf_refuses_ledCount_0 : (conf 0 1 1 .closedView).ledCountOk = false := by decide
theorem test_wf_refuses_ledCount_65537 : (conf 65537 1 1 .closedView).ledCountOk = false := by decide
theorem test_wf_refuses_batch_0 : (conf 3 0 1 .closedView).batchOk = false := by decide
theorem test_wf_refuses_period_2 : { c3 with period := 2 }.periodOk = false := by decide
theorem test_wf_refuses_duty_low_0 : { c3 with dutyLow := 0 }.dutyOk = false := by decide
theorem test_wf_refuses_duty_equal : { c3 with dutyLow := 70 }.dutyOk = false := by decide
theorem test_wf_refuses_duty_above_period : { c3 with dutyHigh := 101 }.dutyOk = false := by decide
theorem test_wf_refuses_threshold_0 : (conf 3 1 0 .closedView).thresholdOk = false := by decide
theorem test_wf_refuses_5_by_2 : (conf 5 2 1 .closedView).multipleOk = false := by decide
theorem test_wf_refuses_two_batches : (conf 4 2 1 .closedView).threeBatchesOk = false := by decide
theorem test_wf_each_check_counts :
    (conf 0 1 1 .closedView).wellFormed = false ∧ (conf 3 0 1 .closedView).wellFormed = false ∧
    { c3 with period := 2 }.wellFormed = false ∧ { c3 with dutyLow := 0 }.wellFormed = false ∧
    (conf 3 1 0 .closedView).wellFormed = false ∧ (conf 5 2 1 .closedView).transmits = false ∧
    (conf 4 2 1 .closedView).transmits = false := by decide

/-- R90: the reserved op codes 0x00, 0x07 and 0xFF, and R85: a strobe at 0. -/
theorem test_wf_refuses_words :
    (OpWord.cmd 0x000000000000#48).wellFormed = false ∧ (OpWord.cmd 0x070000000000#48).wellFormed = false ∧
    (OpWord.cmd 0xFF0000000000#48).wellFormed = false ∧ (OpWord.strobe 0#1).wellFormed = false := by decide

/-! ### Decoding: every operation's word written out bit by bit, `op idx r g b` (R81, R82, R84, R85; section 2.1) -/

theorem test_decode_init :
    decode (.cmd 0b00000001_0000000000000001_00000000_00000000_00000000#48) = .ok (.init 1) := by decide
theorem test_decode_setColor :
    decode (.cmd 0b00000010_0000000000000100_00000001_00000010_00000011#48) = .ok (.setColor 4 1 2 3) := by decide
theorem test_decode_setAll :
    decode (.cmd 0b00000011_1010101111001101_00010000_00100000_00110000#48) = .ok (.setAll 16 32 48) := by decide
theorem test_decode_allOff :
    decode (.cmd 0b00000100_1111111111111111_11111111_11111111_11111111#48) = .ok .allOff := by decide
theorem test_decode_update :
    decode (.cmd 0b00000101_0000000000000000_00000000_00000000_00000000#48) = .ok .update := by decide
theorem test_decode_getColor :
    decode (.cmd 0b00000110_0000000000000011_00000000_00000000_00000000#48) = .ok (.getColor 3) := by decide
theorem test_decode_onHt : decode (.evt 0b0#1) = .ok .onHt := by decide
theorem test_decode_onTc : decode (.evt 0b1#1) = .ok .onTc := by decide
theorem test_decode_rdTick : decode (.strobe 0b1#1) = .ok .rdTick := by decide
theorem test_decode_reserved :
    decode (.cmd 0x000000000000#48) = .error (.reservedOp 0x00) ∧
    decode (.cmd 0x070000000000#48) = .error (.reservedOp 0x07) ∧
    decode (.cmd 0xFF0000000000#48) = .error (.reservedOp 0xFF) := by decide

/-- No two rows of the opcode table share a word. -/
theorem test_rows_disjoint :
    opcodeRows.Pairwise fun a b =>
      a.format ≠ b.format ∨ (a.pattern &&& (a.mask &&& b.mask)) ≠ (b.pattern &&& (a.mask &&& b.mask)) := by decide

/-- The table's own words in the numbering of `opcode_table.json`; both ports' word 1 is read as the event [log 10]. -/
theorem test_table_words :
    decodeTableWord 48 0x010000000000 = some (.init 0) ∧ decodeTableWord 48 0x0200010A141E = some (.setColor 1 10 20 30) ∧
    decodeTableWord 8 0 = some .onHt ∧ decodeTableWord 8 1 = some .onTc ∧ decodeTableWord 48 0x070000000000 = none := by
  decide

/-- A word placed for the next step is the next step's operation, at reset: `UPDATE` answers NOT_INIT (program P6, row 1). -/
theorem test_withFetchWord :
    get (step (State.reset.withFetchWord 48 0x050000000000)) State.rspStatus = some .notInit := by decide

/-! ### The Pulse Encoder (section 2.3) -/

theorem test_encode_a5_3c_0f :
    encodePulses c3 { r := 0xA5, g := 0x3C, b := 0x0F } =
      [35, 35, 70, 70, 70, 70, 35, 35, 70, 35, 70, 35, 35, 70, 35, 70, 35, 35, 35, 35, 70, 70, 70, 70] := by
  decide +kernel

/-- V-S6. -/
theorem test_decode_midpoint : dutyMidpoint c3 = 52 ∧
    decodePulses c3 (encodePulses c3 { r := 0xA5, g := 0x3C, b := 0x0F }) = { r := 0xA5, g := 0x3C, b := 0x0F } := by
  decide +kernel

/-! ### The buffer (section 2.4) -/

theorem test_wrPos :
    (List.range 8).map (wrPos (conf 8 2 1 .closedView)) = [0, 24, 48, 72, 0, 24, 48, 72] := by decide

theorem test_refill_past_last :
    (refill 5 2 (ready (conf 6 2 1 .closedView))).final.faultCause = .contractViolation ∧
    (refill 5 2 (ready (conf 6 2 1 .closedView))).final.mem.buf = entries 24 24 35 := by decide +kernel

/-! ### The Colour Store commands (section 2.2) -/

theorem test_setColor_last_valid :
    get (exec (.setColor 3 1 2 3) (fresh (conf 4 2 1 .closedView) [])) (fun t => (t.rspStatus, t.mem.color)) =
      some (.ok, [(3, { r := 1, g := 2, b := 3 })]) := by decide
theorem test_setColor_first_invalid :
    get (exec (.setColor 4 1 2 3) (fresh (conf 4 2 1 .closedView) [])) (fun t => (t.rspStatus, t.mem.color)) =
      some (.outOfRange, []) := by decide
theorem test_getColor_red_on_top :
    get (exec (.getColor 3) { fresh (conf 4 2 1 .closedView) [] with
      mem := { color := [(3, { r := 1, g := 2, b := 3 })], buf := [] } }) State.rspData = some 0x010203 := by decide
theorem test_getColor_out_of_range :
    get (exec (.getColor 4) { fresh (conf 4 2 1 .closedView) [] with rspData := 0x010203 })
      (fun t => (t.rspStatus, t.rspData)) = some (.outOfRange, 0x010203) := by decide

/-- R58, R111: N steps; with N = 1 the first is the last. -/
theorem test_setAll_one_led :
    get (exec (.setAll 0 0 16) (fresh (conf 1 1 1 .closedView) [])) (fun t => (t.mem.color, t.bulk)) =
      some ([(0, { r := 0, g := 0, b := 16 })], none) := by decide
theorem test_setAll_first_of_three :
    get (exec (.setAll 255 255 255) (fresh c3 [])) (fun t => (t.mem.color, t.bulk)) =
      some ([(0, { r := 255, g := 255, b := 255 })],
        some { colour := { r := 255, g := 255, b := 255 }, next := 1 }) := by decide
theorem test_allOff_erases :
    get (exec .allOff { fresh (conf 1 1 1 .closedView) [] with
      mem := { color := [(0, { r := 1, g := 2, b := 3 })], buf := [] } }) (fun t => t.mem.color) = some [] := by decide

/-! ### INIT and UPDATE (section 2.6) -/

theorem test_init_ok :
    get (exec (.init 1) (fresh (conf 4 2 1 .closedView) [])) (fun t => (t.rspStatus, t.initDone, t.channel)) =
      some (.ok, true, 1) := by decide
theorem test_init_5_by_2 :
    get (exec (.init 1) (fresh (conf 5 2 1 .closedView) [])) (fun t => (t.rspStatus, t.initDone)) =
      some (.configError, false) := by decide

/-- Program P1, step 5: both halves, numerically. -/
theorem test_update_starts :
    get (exec .update { ready c3 with mem := { color := [(0, { r := 255, g := 0, b := 0 })], buf := [] } })
      (fun t => (t.opFlags, t.prog, t.dmaRun, t.mem.buf)) =
      some (0b001#3, 2, true, entries 0 8 35 ++ entries 8 8 70 ++ entries 16 32 35) := by decide +kernel

/-- Section 2.6, last row: N = B = 2. -/
theorem test_update_one_batch :
    get (exec .update (ready (conf 2 2 1 .closedView)))
      (fun t => (t.faultCause, t.prog, t.opFlags, t.dmaRun, t.mem.buf.length)) =
      some (.contractViolation, 0, 0b000#3, false, 48) := by decide +kernel

/-! ### The state machine (section 2.5), N = 8, B = 2, T = 2 -/

theorem test_onHt_gap :
    get (exec .onHt (busy (conf 8 2 2 .openView) flagsGap 8 0))
      (fun t => (t.opFlags, t.rstCnt, t.mem.bufAt 0, t.mem.bufAt 47, t.mem.bufAt 48)) =
      some (0b011#3, 1, some 0, some 0, some 35) := by decide
theorem test_onHt_starts_in_idle :
    get (exec .onHt (busy (conf 8 2 2 .openView) flagsIdle 0 0)) (fun t => (t.opFlags, t.prog)) =
      some (0b000#3, 2) := by decide +kernel
theorem test_onTc_last_batch :
    get (exec .onTc (busy (conf 8 2 2 .openView) flagsStream 6 0)) (fun t => (t.opFlags, t.prog, t.rstCnt)) =
      some (0b011#3, 8, 0) := by decide +kernel
theorem test_onTc_last_count :
    get (exec .onTc (busy (conf 8 2 2 .openView) flagsGap 8 1))
      (fun t => (t.opFlags, t.rstCnt, t.mem.bufAt 47, t.mem.bufAt 48, t.mem.bufAt 95)) =
      some (0b111#3, 2, some 35, some 0, some 0) := by decide

/-! ### The stream port (section 2.7) -/

theorem test_rdTick_raises_ht :
    get (exec .rdTick (streaming 23 none)) (fun t => (t.rdPtr, t.evtPend, t.outDuty)) =
      some (24, some .ht, 35) := by decide
theorem test_rdTick_overrun :
    get (exec .rdTick (streaming 47 (some .ht))) (fun t => (t.rdPtr, t.evtPend, t.faultCause)) =
      some (0, some .ht, .overrun) := by decide

/-! ### Reset (R38) -/

theorem test_reset_wf : State.reset.mem.wf State.reset.cfg := by decide

/-! ### The registers' codes (R33, R34, R86) and the outputs (R173) -/

theorem test_codes :
    [Status.ok, .outOfRange, .configError, .notInit, .alreadyInit, .illegalOp].map statusCode = [0, 1, 2, 3, 4, 5] ∧
    [FaultCause.none, .contractViolation, .overrun].map faultCauseCode = [0, 1, 2] ∧
    [none, some Event.ht, some Event.tc].map evtPendCode = [0b00, 0b10, 0b11] := by decide
theorem test_irq_lines :
    (streaming 24 (some .ht)).ports.irqHt = true ∧ (streaming 24 (some .ht)).ports.irqTc = false ∧
    (streaming 0 (some .tc)).ports.irqTc = true ∧ (streaming 0 none).ports.irqHt = false := by decide

/-! ### A state that meets the hypotheses of each statement, clause by clause -/

theorem witness_UnusedFieldsIgnored :
    opField 0x03ABCD102030#48 = opField 0x030000102030#48 ∧ rField 0x03ABCD102030#48 = rField 0x030000102030#48 ∧
    gField 0x03ABCD102030#48 = gField 0x030000102030#48 ∧ bField 0x03ABCD102030#48 = bField 0x030000102030#48 ∧
    ¬ (opField 0x03ABCD102030#48 = 0x01#8 ∨ opField 0x03ABCD102030#48 = 0x02#8 ∨ opField 0x03ABCD102030#48 = 0x06#8) := by
  decide

theorem witness_EncodeNeverIdle : c3.dutyOk = true ∧ (70 : Duty) ∈ encodePulses c3 { r := 0, g := 128, b := 0 } := by
  decide +kernel

theorem witness_PulseRoundTrip : c3.dutyLow.toNat < c3.dutyHigh.toNat := by decide

theorem witness_BatchesAlternateHalves : (1 : Nat) < (conf 8 2 1 .closedView).batch := by decide

theorem witness_RefillWritesEachLed :
    4 < (conf 6 2 1 .closedView).ledCount ∧ 4 + 2 ≤ (conf 6 2 1 .closedView).ledCount ∧
    2 ≤ 2 * (conf 6 2 1 .closedView).batch := by decide

theorem witness_RefillPreconditionFaults :
    (conf 6 2 1 .closedView).ledCount ≤ 6 ∧ (conf 6 2 1 .closedView).ledCount < 7 := by decide

theorem witness_RefillPastLastLedFaults :
    5 < (conf 6 2 1 .closedView).ledCount ∧ 2 ≤ (conf 6 2 1 .closedView).ledCount ∧
    (conf 6 2 1 .closedView).ledCount < 5 + 2 ∧
    (conf 6 2 1 .closedView).ledCount - 5 ≤ 2 * (conf 6 2 1 .closedView).batch := by decide

theorem witness_SetColorStoresOneLed :
    TaskReady (fresh c3 []) ∧ (2 : BitVec 16).toNat < (fresh c3 []).cfg.ledCount ∧
    (fresh c3 []).cfg.ledCount ≤ (3 : BitVec 16).toNat := by decide

theorem witness_GetColorReadsOneLed :
    TaskReady (busy c3 flagsStream 2 0) ∧ (2 : BitVec 16).toNat < (busy c3 flagsStream 2 0).cfg.ledCount ∧
    (busy c3 flagsStream 2 0).cfg.ledCount ≤ (3 : BitVec 16).toNat := by decide

theorem witness_BulkCommandsStart :
    TaskReady (fresh c3 []) ∧ 2 ≤ (fresh c3 []).cfg.ledCount ∧
    TaskReady (fresh (conf 1 1 1 .closedView) []) ∧ (fresh (conf 1 1 1 .closedView) []).cfg.ledCount = 1 := by decide

/-- A middle step on the TASK agent's turn, and the last step while the next command waits. -/
theorem witness_BulkStepWritesNextLed :
    ((bulkAt 1 [.task]).fault = false ∧ (bulkAt 1 [.task]).bulk = some { colour := Colour.off, next := 1 } ∧
      1 + 1 < (bulkAt 1 [.task]).cfg.ledCount ∧ (bulkAt 1 [.task]).inputs = [.task]) ∧
    ((bulkAt 2 [.port (.cmd 5)]).fault = false ∧
      (bulkAt 2 [.port (.cmd 5)]).bulk = some { colour := Colour.off, next := 2 } ∧
      2 + 1 = (bulkAt 2 [.port (.cmd 5)]).cfg.ledCount ∧ (bulkAt 2 [.port (.cmd 5)]).inputs = [.port (.cmd 5)]) := by
  decide

theorem witness_BulkCommandsSetEveryLed :
    TaskReady (fresh c3 (.port (encode .allOff) :: (List.replicate 2 .task ++ []))) ∧ 1 ≤ c3.ledCount ∧
    (fresh c3 (.port (encode .allOff) :: (List.replicate 2 .task ++ []))).inputs =
      .port (encode .allOff) :: (List.replicate (c3.ledCount - 1) .task ++ []) := by decide

theorem witness_InitChecksOnce :
    TaskReady (ready c3) ∧ (ready c3).initDone = true ∧
    TaskReady (fresh c3 []) ∧ (fresh c3 []).initDone = false ∧ c3.ledCount % c3.batch = 0 ∧
    TaskReady (fresh (conf 5 2 1 .closedView) []) ∧ (fresh (conf 5 2 1 .closedView) []).initDone = false ∧
    (conf 5 2 1 .closedView).ledCount % (conf 5 2 1 .closedView).batch ≠ 0 := by decide

/-- At the boundary N = 2B, where the start still succeeds. -/
theorem witness_UpdateStartsTransmission :
    TaskReady (ready (conf 4 2 1 .closedView)) ∧ (ready (conf 4 2 1 .closedView)).initDone = true ∧
    updatingBit (ready (conf 4 2 1 .closedView)).opFlags = false ∧ 1 ≤ (conf 4 2 1 .closedView).ledCount ∧
    2 * (conf 4 2 1 .closedView).batch ≤ (conf 4 2 1 .closedView).ledCount := by decide

theorem witness_UpdateWhileBusyIgnored :
    TaskReady (busy c3 flagsStream 2 0) ∧ (busy c3 flagsStream 2 0).initDone = true ∧
    updatingBit (busy c3 flagsStream 2 0).opFlags = true ∧
    updatingBit (busy c3 flagsGap 3 0).opFlags = true ∧ updatingBit (busy c3 flagsStopping 3 1).opFlags = true := by decide

theorem witness_UpdateBeforeInitRefused : TaskReady State.reset ∧ State.reset.initDone = false := by decide

theorem witness_UpdateBelowTwoBatchesFaults :
    TaskReady (ready (conf 2 2 1 .closedView)) ∧ (ready (conf 2 2 1 .closedView)).initDone = true ∧
    updatingBit (ready (conf 2 2 1 .closedView)).opFlags = false ∧
    (conf 2 2 1 .closedView).ledCount < 2 * (conf 2 2 1 .closedView).batch ∧
    (conf 2 2 1 .closedView).batch ≤ (conf 2 2 1 .closedView).ledCount ∧
    (conf 1 2 1 .closedView).ledCount < (conf 1 2 1 .closedView).batch ∧
    (conf 0 0 1 .closedView).ledCount = 0 := by decide

theorem witness_CommandNotAcceptedChangesNothing :
    isCommand .update = true ∧ { ready c3 with fault := true }.fault = true ∧
    { ready c3 with bulk := some { colour := Colour.off, next := 1 } }.bulk ≠ none := by decide

theorem witness_StopCaseEndsTransmission :
    EventEnabled .tc (stopping []) ∧ dmaStopBit (stopping []).opFlags = true ∧
    EventEnabled .tc (busy (conf 8 2 2 .openView) 0b110#3 8 2) ∧ dmaStopBit 0b110#3 = true := by decide

theorem witness_GapCaseZeroesVacatedHalf :
    EventEnabled .tc { busy c3 flagsGap 3 0 with evtPend := some .tc } ∧
    dmaStopBit (busy c3 flagsGap 3 0).opFlags = false ∧ resetSignalBit (busy c3 flagsGap 3 0).opFlags = true := by decide

/-- The refill that meets its precondition, the one at N, and the one that passes N. -/
theorem witness_StreamCaseRefillsNextBatch :
    EventEnabled .ht (streaming 24 (some .ht)) ∧ dmaStopBit (streaming 24 (some .ht)).opFlags = false ∧
    resetSignalBit (streaming 24 (some .ht)).opFlags = false ∧
    (streaming 24 (some .ht)).prog + 1 ≤ (streaming 24 (some .ht)).cfg.ledCount ∧
    (busy (conf 4 2 1 .openView) flagsStream 4 0).cfg.ledCount ≤ (busy (conf 4 2 1 .openView) flagsStream 4 0).prog ∧
    EventEnabled .ht (busy (conf 4 2 1 .openView) flagsStream 4 0) ∧
    (busy (conf 6 4 1 .openView) flagsStream 4 0).cfg.ledCount < (busy (conf 6 4 1 .openView) flagsStream 4 0).prog + 4 ∧
    (busy (conf 6 4 1 .openView) flagsStream 4 0).prog < (busy (conf 6 4 1 .openView) flagsStream 4 0).cfg.ledCount := by
  decide

theorem witness_EventNotEnabledChangesNothing :
    { streaming 24 (some .ht) with fault := true }.fault = true ∧
    (streaming 24 (some .ht)).cfg.view = .closedView ∧ (streaming 24 (some .ht)).evtPend ≠ some .tc := by decide

/-- The first row of V-S4: N = 3, B = 1, T = 1, three events. -/
theorem witness_TransmissionTakesExactlyTheCountedEvents :
    threeEvents.cfg.view = .openView ∧ threeEvents.cfg.transmits = true ∧ threeEvents.fault = false ∧
    threeEvents.opFlags = flagsStream ∧ threeEvents.prog = 2 * threeEvents.cfg.batch ∧ threeEvents.rstCnt = 0 ∧
    threeEvents.inputs = [Event.ht, .tc, .ht].map (fun e => .port (.evt (eventBit e))) ∧
    [Event.ht, .tc, .ht].length =
      threeEvents.cfg.ledCount / threeEvents.cfg.batch - 1 + threeEvents.cfg.resetIrqThreshold := by decide

/-- The clauses of the read tick: a plain one, one in a fault, the two boundaries, and an event still pending at each boundary. -/
theorem witness_TickStreamsOneEntry :
    TickEnabled (streaming 22 none) ∧ (streaming 22 none).rdPtr < c3.bufLen ∧
    (streaming 22 none).mem.bufAt 22 = some 35 ∧ (23 ≠ c3.halfLen ∧ 23 ≠ 0) ∧
    TickEnabled { streaming 23 none with fault := true } ∧
    (streaming 23 none).mem.bufAt 23 = some 35 ∧ 24 = c3.halfLen ∧ (streaming 23 none).fault = false ∧
    (streaming 47 none).mem.bufAt 47 = some 35 ∧ 47 + 1 = c3.bufLen ∧
    (streaming 23 (some .tc)).evtPend ≠ none ∧ (streaming 47 (some .ht)).evtPend ≠ none := by decide

theorem witness_TickOffOrStops :
    ¬ TickEnabled (ready c3) ∧ ¬ TickEnabled (busy (conf 3 1 1 .openView) flagsStream 2 0) ∧
    TickEnabled { ready c3 with dmaRun := true } ∧ (ready c3).mem.bufAt 47 = none ∧ 47 < c3.bufLen ∧
    TickEnabled (streaming 48 none) ∧ c3.bufLen ≤ (streaming 48 none).rdPtr := by decide

theorem witness_StepRunsDecodedOperation :
    (fresh c3 [.port (.cmd 0x050000000000)]).inputs = [.port (.cmd 0x050000000000)] ∧
    decode (.cmd 0x050000000000#48) = .ok .update ∧ (fresh c3 []).bulk = none ∧
    (stopping [.irq]).inputs = [.irq] ∧ (stopping [.irq]).cfg.view = .closedView ∧
    (stopping [.irq]).evtPend = some .tc := by decide

theorem witness_StepWithNothingToDo :
    (fresh c3 []).inputs = [] ∧ (fresh c3 [.port (.strobe 0#1)]).inputs = [.port (.strobe 0#1)] ∧
    (fresh c3 [.irq]).evtPend = none ∧ (fresh c3 [.task]).bulk = none := by decide

theorem witness_ReservedOpAnswersIllegal :
    TaskReady (fresh c3 [.port (.cmd 0x070000000000)]) ∧ 7 ≤ (opField 0x070000000000#48).toNat ∧
    (opField 0x000000000000#48).toNat = 0 := by decide

theorem witness_HardResetRestoresEverything :
    { stopping [.reset] with fault := true }.inputs = [.reset] := by decide

/-- A step with each kind of input that answers a next state: the hypothesis of the statements about every step. -/
theorem witness_steps_answer :
    (nextOf (step (fresh c3 [.port (.cmd 0x050000000000)]))).isSome ∧ (nextOf (step (fresh c3 [.reset]))).isSome ∧
    (nextOf (step (stopping [.irq]))).isSome ∧ (nextOf (step (stopping [.port (.strobe 1#1)]))).isSome := by decide

theorem witness_StepKeepsMemoryCanonical : (stopping [.irq]).mem.wf (stopping [.irq]).cfg := by decide

theorem witness_FaultIsStickyAndFreezes :
    { stopping [.port (.strobe 1#1)] with fault := true }.fault = true ∧
    (stopping [.port (.strobe 1#1)]).inputs.head? ≠ some .reset ∧
    (nextOf (step { stopping [.port (.strobe 1#1)] with fault := true })).isSome := by decide

theorem witness_OnlySettersWriteColours :
    writesColours .onTc = false ∧ (nextOf (exec .onTc (stopping []))).isSome := by decide

/-- Each outcome of the Progress Counter: unchanged, 2B, one batch more, 0. -/
theorem witness_ProgressCounterWrites :
    get (exec .rdTick (streaming 0 none)) State.prog = some 2 ∧ get (exec .update (ready c3)) State.prog = some 2 ∧
    get (exec .onHt (streaming 24 (some .ht))) State.prog = some 3 ∧ get (exec .onTc (stopping [])) State.prog = some 0 := by
  decide +kernel

theorem witness_BusyCommandsLeaveTransmissionAlone :
    isCommand .update = true ∧ updatingBit (streaming 0 none).opFlags = true ∧
    (nextOf (exec .update (streaming 0 none))).isSome := by decide

theorem witness_OnlyUpdateStartsOnlyEventsStop :
    (ready c3).dmaRun = false ∧ get (exec .update (ready c3)) State.dmaRun = some true ∧
    (stopping []).dmaRun = true ∧ get (exec .onTc (stopping [])) State.dmaRun = some false := by decide +kernel

theorem witness_ResponseRegistersWrittenByCommandsOnly :
    isCommand .rdTick = false ∧ (nextOf (exec .rdTick (streaming 0 none))).isSome := by decide

theorem witness_ChannelHasNoOtherEffect : (nextOf (exec (.init 7) (fresh c3 []))).isSome := by decide

/-- A state for each status, each cause and each value of the latch. -/
theorem witness_PortsNeverShowUnusedCodes :
    (∀ x : Status, x ∈ [Status.ok, .outOfRange, .configError, .notInit, .alreadyInit, .illegalOp] →
      { ready c3 with rspStatus := x }.rspStatus = x) ∧
    (∀ x : FaultCause, x ∈ [FaultCause.none, .contractViolation, .overrun] →
      { ready c3 with faultCause := x }.faultCause = x) ∧
    (streaming 24 (some .ht)).evtPend = some .ht ∧ (streaming 0 (some .tc)).evtPend = some .tc := by decide

theorem witness_ResetMeetsClosedInv : c3.view = .closedView ∧ c3.transmits = true := by decide

/-- The invariant of the closed view does not look at the inputs to come. -/
theorem closedInv_withInputs {s : State} (h : ClosedInv s) (l : List Input) : ClosedInv { s with inputs := l } :=
  { h with }

/-- The stopping transmission meets the invariant of the closed view, whatever inputs come next. -/
theorem witness_ClosedInv (l : List Input) : ClosedInv (stopping l) := by
  have h : ClosedInv (stopping []) :=
    { closed := by decide
      transmits := by decide
      memory := by decide
      lifecycle := .inr (.inr (.inr (by decide)))
      progMultiple := by decide
      initFirst := by decide
      cursor := by decide
      written := by decide
      symbols := by decide
      idleOutput := by decide
      cause := by decide
      faultPending := by decide
      phase := by decide
      bulkInRange := nofun }
  exact closedInv_withInputs h l

theorem witness_StepKeepsClosedInv : ClosedInv (stopping [.irq]) ∧ (nextOf (step (stopping [.irq]))).isSome :=
  ⟨witness_ClosedInv _, by decide⟩

theorem witness_ClosedStepNeverStops : ClosedInv (stopping [.port (.strobe 1#1)]) := witness_ClosedInv _

theorem witness_FlagsFollowLifecycle :
    ClosedInv (stopping [.irq]) ∧ (stopping [.irq]).inputs.head? ≠ some .reset ∧
    get (step (stopping [.irq])) State.opFlags = some 0b000#3 :=
  ⟨witness_ClosedInv _, by decide, by decide⟩

theorem witness_HandlerNeverWritesHalfBeingRead :
    ClosedInv (stopping []) ∧ (stopping []).fault = false ∧ (stopping []).evtPend = some .tc :=
  ⟨witness_ClosedInv _, by decide, by decide⟩

theorem streamValue_stopping :
    List.replicate 72 35 ++ List.replicate 27 0 = (List.range 99).map (streamValue (conf 3 1 2 .closedView) fun _ => Colour.off) ∧
    ∀ k < 21, (stopping []).mem.bufAt ((99 + k) % 48) = some (streamValue (conf 3 1 2 .closedView) (fun _ => Colour.off) (99 + k)) := by
  decide +kernel

/-- The stopping transmission streams the frame of LEDs that are all off. -/
theorem witness_StreamsFrame (l : List Input) : StreamsFrame (fun _ => Colour.off) (stopping l) where
  ahead _ h1 h2 := absurd h2 (Nat.not_lt.2 h1)
  traced _ _ := by
    have h : eventsRaised (stopping l) * (stopping l).cfg.halfLen + (stopping l).rdPtr % (stopping l).cfg.halfLen = 99 := by
      show eventsRaised (stopping []) * (stopping []).cfg.halfLen + (stopping []).rdPtr % (stopping []).cfg.halfLen = 99
      decide
    rw [h]
    exact streamValue_stopping.1
  buffered _ _ n h1 h2 := by
    have h : (eventsHandled (stopping l) + 2) * (stopping l).cfg.halfLen = 120 := by
      show (eventsHandled (stopping []) + 2) * (stopping []).cfg.halfLen = 120
      decide
    have h1 : 99 ≤ n := h1
    have := streamValue_stopping.2 (n - 99) (by omega)
    rwa [Nat.add_sub_cancel' h1] at this

theorem witness_StepKeepsStreamingFrame :
    ClosedInv (stopping [.port (.strobe 1#1)]) ∧
    StreamsFrame (fun _ => Colour.off) (stopping [.port (.strobe 1#1)]) ∧
    get (step (stopping [.port (.strobe 1#1)])) (fun t => (t.prog, t.mem.colorAt 0)) = some (3, Colour.off) :=
  ⟨witness_ClosedInv _, witness_StreamsFrame _, by decide⟩

theorem witness_TraceAtStopIsFrameAndGap :
    ClosedInv (stopping []) ∧ StreamsFrame (fun _ => Colour.off) (stopping []) ∧ (stopping []).fault = false ∧
    (stopping []).opFlags = flagsStopping ∧ (stopping []).evtPend = some .tc :=
  ⟨witness_ClosedInv _, witness_StreamsFrame _, by decide, by decide, by decide⟩

end Sys2Proof.Tests
end

section
/-! The parameters (`00_scope.md` R6): each case that the inversion lemmas of an operation or a step leave open keeps `cfg`. -/

namespace Sys2Proof.Machine

@[simp] theorem countGap_cfg (s : State) : (countGap s).cfg = s.cfg := by
  unfold countGap
  split <;> rfl

@[simp] theorem countBatch_cfg (s : State) : (countBatch s).cfg = s.cfg := by
  unfold countBatch
  split <;> rfl

@[simp] theorem hardReset_cfg (rest : List Input) (s : State) : (hardReset rest s).cfg = s.cfg := rfl

theorem EventCase.cfg_eq {e : Event} {s t : State} (h : EventCase e s t) : t.cfg = s.cfg := by
  cases h with
  | notEnabled _ ht => rw [ht]
  | stop _ _ ht => rw [ht, stopCase_cfg]
  | gap _ _ ht => rw [ht, countGap_cfg]
  | stream _ _ ht => rw [ht, countBatch_cfg]
  | faulted _ _ ht => rw [ht, latchFault_cfg]

theorem TickCase.cfg_eq {s t : State} (h : TickCase s t) : t.cfg = s.cfg := by
  cases h with
  | notEnabled _ ht => rw [ht]
  | quiet _ _ _ _ _ ht => rw [ht, streamOut_cfg]
  | raised _ _ _ _ _ _ _ _ ht => rw [ht, streamOut_cfg]
  | overrun _ _ _ _ _ _ ht => rw [ht, latchFault_cfg, streamOut_cfg]

theorem BulkCase.cfg_eq {k : Bulk} {s t : State} (h : BulkCase k s t) : t.cfg = s.cfg := by
  obtain ⟨m, b, r, ht⟩ := h.frame
  rw [ht]

theorem CommandCase.cfg_eq {i : Instr} {s t : State} (h : CommandCase i s t) : t.cfg = s.cfg := by
  cases h with
  | notAccepted _ ht => rw [ht]
  | answered _ _ ht => rw [ht, answer_cfg]
  | inited _ _ _ _ _ ht => rw [ht, answer_cfg]
  | colourSet _ _ _ _ _ ht => rw [ht, answer_cfg, writeColor_cfg]
  | bulkStarted _ _ _ hb => exact hb.cfg_eq
  | colourRead _ _ _ _ ht => rw [ht, answer_cfg]
  | streamStarted _ _ _ _ _ ht => rw [ht, beginStream_cfg]
  | updateFaulted _ _ _ _ ht => rw [ht, latchFault_cfg]

/-- R6 for one operation. -/
theorem exec_cfg {i : Instr} {s t : State} (h : exec i s = .next t) : t.cfg = s.cfg := by
  cases exec_cases h with
  | command _ hc => exact hc.cfg_eq
  | event _ _ he => exact he.cfg_eq
  | tick _ ht => exact ht.cfg_eq

theorem StepCase.cfg_eq {s t : State} (h : StepCase s t) : t.cfg = s.cfg := by
  cases h with
  | quiet _ ht => rw [ht]
  | reset _ _ ht => rw [ht, hardReset_cfg]
  | bulk _ _ _ _ hb => exact hb.cfg_eq
  | illegal _ _ ht => rw [ht, answer_cfg]
  | ran _ _ hx => rw [exec_cfg hx]

/-- Settles O36: every case of a step keeps the configuration, hardware reset included. -/
theorem parametersNeverChange : Obligations.ParametersNeverChange :=
  fun _ _ h => (step_stepCase h).cfg_eq

end Sys2Proof.Machine
end

section
/-! The layout of an encoded colour (`42_pulse_encoder.md` R121, R122): positions 0, 8 and 16 of the encoding are where the
channels begin, and the wire word carries the channels in the same order. -/

namespace Sys2Proof.Machine

section
variable (c : Config) (x : Colour) {m : Nat}

theorem getElem?_encodePulses_green (hm : m < 8) :
    (encodePulses c x)[m]? = some (symbol c (x.g.getLsbD (7 - m))) := by
  have not_blue : ¬ 23 - m < 8 := by omega
  have not_red : ¬ 23 - m < 16 := by omega
  have bit : 23 - m - 16 = 7 - m := by omega
  rw [getElem?_encodePulses c x (by omega), getLsbD_wireWord, if_neg not_blue, if_neg not_red, bit]

theorem getElem?_encodePulses_red (hm : m < 8) :
    (encodePulses c x)[8 + m]? = some (symbol c (x.r.getLsbD (7 - m))) := by
  have not_blue : ¬ 23 - (8 + m) < 8 := by omega
  have is_red : 23 - (8 + m) < 16 := by omega
  have bit : 23 - (8 + m) - 8 = 7 - m := by omega
  rw [getElem?_encodePulses c x (by omega), getLsbD_wireWord, if_neg not_blue, if_pos is_red, bit]

theorem getElem?_encodePulses_blue (hm : m < 8) :
    (encodePulses c x)[16 + m]? = some (symbol c (x.b.getLsbD (7 - m))) := by
  have is_blue : 23 - (16 + m) < 8 := by omega
  have bit : 23 - (16 + m) = 7 - m := by omega
  rw [getElem?_encodePulses c x (by omega), getLsbD_wireWord, if_pos is_blue, bit]

end

/-- Settles O6: each channel's eight positions read that channel's byte of the wire word from bit 7 down. -/
theorem encodeIsGreenRedBlueMsbFirst : Obligations.EncodeIsGreenRedBlueMsbFirst :=
  fun c x => ⟨length_encodePulses c x, fun _ hm =>
    ⟨getElem?_encodePulses_green c x hm, getElem?_encodePulses_red c x hm, getElem?_encodePulses_blue c x hm⟩⟩

end Sys2Proof.Machine
end

section
/-! Zeroing a half (`43_buffer_refill.md` R134): an entry read back is the idle level in that half and the old entry elsewhere. -/

namespace Sys2Proof.Machine

/-- R134: the run written is `halfLen` idle values long, so its bounds are the half's, and each of its positions reads idle. -/
theorem bufAt_zeroHalf (h : Half) (s : State) (p : Nat) :
    (zeroHalf h s).mem.bufAt p = if inHalf s.cfg h p then some dutyIdle else s.mem.bufAt p := by
  rw [zeroHalf_mem, Memory.bufAt_writeRun, List.length_replicate]
  split
  case isTrue hp =>
    have offset : p - halfBase s.cfg h < s.cfg.halfLen := by omega
    exact List.getElem?_replicate_of_lt offset
  case isFalse => rfl

/-- Settles O13: the read of each entry after the zeroing, and the frame. -/
theorem zeroHalfWritesOneHalf : Obligations.ZeroHalfWritesOneHalf :=
  fun h s => ⟨bufAt_zeroHalf h s, zeroHalf_frame h s⟩

end Sys2Proof.Machine
end

section
/-! The decoder (`30_encoding.md`): one equation per op code; the round trip, the layout and the reserved words are read off them. -/

namespace Sys2Proof

section
variable {w : CmdWord}

theorem decodeCmd_init (h : opField w = 0x01#8) : decodeCmd w = .ok (.init (idxField w)) := if_pos h

theorem decodeCmd_setColor (h : opField w = 0x02#8) :
    decodeCmd w = .ok (.setColor (idxField w) (rField w) (gField w) (bField w)) := by
  simp [decodeCmd, h]

theorem decodeCmd_setAll (h : opField w = 0x03#8) :
    decodeCmd w = .ok (.setAll (rField w) (gField w) (bField w)) := by
  simp [decodeCmd, h]

theorem decodeCmd_allOff (h : opField w = 0x04#8) : decodeCmd w = .ok .allOff := by simp [decodeCmd, h]

theorem decodeCmd_update (h : opField w = 0x05#8) : decodeCmd w = .ok .update := by simp [decodeCmd, h]

theorem decodeCmd_getColor (h : opField w = 0x06#8) : decodeCmd w = .ok (.getColor (idxField w)) := by
  simp [decodeCmd, h]

end

/-- The op codes that name a command, one by one (R82). -/
theorem opCodeNames_cases {op : Byte} (h : opCodeNames op = true) :
    op = 0x01#8 ∨ op = 0x02#8 ∨ op = 0x03#8 ∨ op = 0x04#8 ∨ op = 0x05#8 ∨ op = 0x06#8 := by
  simp only [opCodeNames, decide_eq_true_eq] at h
  bv_omega

theorem decodeCmd_reserved {w : CmdWord} (h : opCodeNames (opField w) = false) :
    decodeCmd w = .error (.reservedOp (opField w)) := by
  have other : ∀ op : Byte, opCodeNames op = true → opField w ≠ op := by
    rintro op named rfl
    exact absurd named (by simp [h])
  simp [decodeCmd, other 0x01#8 rfl, other 0x02#8 rfl, other 0x03#8 rfl, other 0x04#8 rfl, other 0x05#8 rfl,
    other 0x06#8 rfl]

/-- A command word decodes exactly if its op code names a command (R82, R90). -/
theorem exists_decodeCmd_iff (w : CmdWord) : (∃ i, decodeCmd w = .ok i) ↔ opCodeNames (opField w) = true := by
  constructor
  · rintro ⟨i, hi⟩
    by_contra h
    rw [decodeCmd_reserved (by simpa using h)] at hi
    cases hi
  · intro h
    rcases opCodeNames_cases h with h | h | h | h | h | h
    · exact ⟨_, decodeCmd_init h⟩
    · exact ⟨_, decodeCmd_setColor h⟩
    · exact ⟨_, decodeCmd_setAll h⟩
    · exact ⟨_, decodeCmd_allOff h⟩
    · exact ⟨_, decodeCmd_update h⟩
    · exact ⟨_, decodeCmd_getColor h⟩

/-- Settles O1: each operation's word is packed with its own op code, and unpacking a field gives back what was packed. -/
theorem decodeEncodeRoundTrip : Obligations.DecodeEncodeRoundTrip := by
  intro i
  cases i with
  | init ch => simp [encode, decode, decodeCmd_init]
  | setColor idx r g b => simp [encode, decode, decodeCmd_setColor]
  | setAll r g b => simp [encode, decode, decodeCmd_setAll]
  | allOff => simp [encode, decode, decodeCmd_allOff]
  | update => simp [encode, decode, decodeCmd_update]
  | getColor idx => simp [encode, decode, decodeCmd_getColor]
  | onHt => rfl
  | onTc => rfl
  | rdTick => rfl

/-- Appending `y` below `x` shifts `x` up by the width of `y`. -/
theorem toNat_append_eq {m n : Nat} (x : BitVec m) (y : BitVec n) : (x ++ y).toNat = x.toNat * 2 ^ n + y.toNat := by
  rw [BitVec.toNat_append, Nat.shiftLeft_eq, Nat.mul_comm, Nat.two_pow_add_eq_or_of_lt y.isLt]

/-- Settles O2: each field is appended below the ones before it, so it shifts them up by its own width. -/
theorem commandWordIsWeightedSum : Obligations.CommandWordIsWeightedSum := by
  intro op idx r g b
  have h : (packCmd op idx r g b).toNat = (op ++ idx ++ r ++ g ++ b).toNat := rfl
  rw [h, toNat_append_eq, toNat_append_eq, toNat_append_eq, toNat_append_eq]
  omega

/-- Settles O3: of two words with the same op code the decoder reads the fields of that op code's operation only. -/
theorem unusedFieldsIgnored : Obligations.UnusedFieldsIgnored := by
  intro w v hop hidx hrgb
  show decodeCmd w = decodeCmd v
  by_cases h : opCodeNames (opField w) = true
  · rcases opCodeNames_cases h with h | h | h | h | h | h
    · rw [decodeCmd_init h, decodeCmd_init (hop ▸ h), hidx (.inl h)]
    · obtain ⟨hr, hg, hb⟩ := hrgb (.inl h)
      rw [decodeCmd_setColor h, decodeCmd_setColor (hop ▸ h), hidx (.inr (.inl h)), hr, hg, hb]
    · obtain ⟨hr, hg, hb⟩ := hrgb (.inr h)
      rw [decodeCmd_setAll h, decodeCmd_setAll (hop ▸ h), hr, hg, hb]
    · rw [decodeCmd_allOff h, decodeCmd_allOff (hop ▸ h)]
    · rw [decodeCmd_update h, decodeCmd_update (hop ▸ h)]
    · rw [decodeCmd_getColor h, decodeCmd_getColor (hop ▸ h), hidx (.inr (.inr h))]
  · have h : opCodeNames (opField w) = false := by simpa using h
    rw [decodeCmd_reserved h, decodeCmd_reserved (hop ▸ h), hop]

/-- Settles O4: commands by their op codes, every event bit, and of the two strobe levels the raised one. -/
theorem decodableIffWellFormed : Obligations.DecodableIffWellFormed := by
  intro w
  cases w with
  | cmd w => exact exists_decodeCmd_iff w
  | evt e => simp [decode, OpWord.wellFormed]
  | strobe t => by_cases h : t = 1#1 <;> simp [decode, OpWord.wellFormed, h]

/-- Settles O5: the words are constants, so the decoder runs on them. -/
theorem wordsDecodeAsWritten : Obligations.WordsDecodeAsWritten := by
  unfold Obligations.WordsDecodeAsWritten
  decide

end Sys2Proof
end

section
/-! The two bit symbols and the midpoint between them (`42_pulse_encoder.md` R120, R125). -/

namespace Sys2Proof.Machine

theorem symbol_eq (c : Config) (bit : Bool) : symbol c bit = c.dutyHigh ∨ symbol c bit = c.dutyLow := by
  cases bit
  · exact .inr rfl
  · exact .inl rfl

theorem mem_encodePulses {c : Config} {x : Colour} {d : Duty} (h : d ∈ encodePulses c x) :
    d = c.dutyHigh ∨ d = c.dutyLow := by
  obtain ⟨j, hj⟩ := List.mem_iff_getElem?.1 h
  obtain ⟨hlt, -⟩ := List.getElem?_eq_some_iff.1 hj
  rw [getElem?_encodePulses c x (by simpa using hlt), Option.some.injEq] at hj
  exact hj ▸ symbol_eq c _

/-- Settles O7: an encoding is made of symbols, and R8 (a) puts both above the idle level 0. -/
theorem encodeNeverIdle : Obligations.EncodeNeverIdle := by
  refine fun c x d hd => ⟨mem_encodePulses hd, fun hc hidle => ?_⟩
  simp only [Config.dutyOk, decide_eq_true_eq] at hc
  have idle : d.toNat = 0 := by rw [hidle]; rfl
  rcases mem_encodePulses hd with h | h <;> rw [h] at idle <;> omega

theorem dutyMidpoint_bounds {c : Config} (h : c.dutyLow.toNat < c.dutyHigh.toNat) :
    c.dutyLow.toNat ≤ dutyMidpoint c ∧ dutyMidpoint c < c.dutyHigh.toNat := by
  unfold dutyMidpoint
  omega

/-- The comparison with the midpoint reads back the bit that the symbol stands for (R125). -/
theorem midpoint_lt_symbol_iff {c : Config} (h : c.dutyLow.toNat < c.dutyHigh.toNat) (bit : Bool) :
    decide (dutyMidpoint c < (symbol c bit).toNat) = bit := by
  obtain ⟨low, high⟩ := dutyMidpoint_bounds h
  cases bit
  · exact decide_eq_false (Nat.not_lt.2 low)
  · exact decide_eq_true high

/-- Bits shifted in one after the other, written here last bit first, stand in the word from bit 0 up. -/
theorem getLsbD_foldr_shiftConcat (bit : Duty → Bool) (l : List Duty) {i : Nat} (hi : i < 24) :
    (l.foldr (fun d (w : BitVec 24) => w.shiftConcat (bit d)) 0).getLsbD i = (l[i]?.map bit).getD false := by
  induction l generalizing i with
  | nil => simp
  | cons d l ih =>
    cases i with
    | zero => simp
    | succ i =>
      rw [List.foldr_cons, BitVec.getLsbD_shiftConcat, Nat.add_sub_cancel, ih (Nat.lt_of_succ_lt hi)]
      simp [hi]

/-- Shifting in the bits read from an encoding rebuilds the wire word. -/
theorem foldl_shiftConcat_encodePulses {c : Config} (h : c.dutyLow.toNat < c.dutyHigh.toNat) (x : Colour) :
    (encodePulses c x).foldl (fun (w : BitVec 24) d => w.shiftConcat (decide (dutyMidpoint c < d.toNat))) 0 =
      wireWord x := by
  refine BitVec.eq_of_getLsbD_eq fun i hi => ?_
  have position : 24 - 1 - i < 24 := by omega
  have bit : 23 - (24 - 1 - i) = i := by omega
  rw [List.foldl_eq_foldr_reverse, getLsbD_foldr_shiftConcat _ _ hi, List.getElem?_reverse (by simpa using hi),
    length_encodePulses, getElem?_encodePulses c x position, bit]
  exact midpoint_lt_symbol_iff h _

theorem extractLsb'_wireWord (x : Colour) :
    (wireWord x).extractLsb' 8 8 = x.r ∧ (wireWord x).extractLsb' 16 8 = x.g ∧ (wireWord x).extractLsb' 0 8 = x.b := by
  refine ⟨?_, ?_, ?_⟩ <;> refine BitVec.eq_of_getLsbD_eq fun i hi => ?_
  · have red : 8 + i < 16 := by omega
    simp [getLsbD_wireWord, hi, red]
  · have green : ¬ 16 + i < 8 := by omega
    simp [getLsbD_wireWord, hi, green]
  · simp [getLsbD_wireWord, hi]

/-- Settles O8: the wire word is rebuilt, and its three bytes are the channels. -/
theorem pulseRoundTrip : Obligations.PulseRoundTrip := by
  intro c x h
  obtain ⟨low, high⟩ := dutyMidpoint_bounds h
  obtain ⟨hr, hg, hb⟩ := extractLsb'_wireWord x
  refine ⟨low, high, ?_⟩
  rw [decodePulses, foldl_shiftConcat_encodePulses h]
  simp only [hr, hg, hb]

end Sys2Proof.Machine
end

section
/-! The Transmission Buffer as a ring of LED runs (`43_buffer_refill.md` R130 to R136). -/

namespace Sys2Proof.Machine

/-! ### Write positions -/

/-- Two LEDs less than a ring apart are at different places of it. -/
theorem mod_ne_mod_of_lt {a b m : Nat} (hab : a < b) (hb : b < a + m) : a % m ≠ b % m := by
  intro h
  have hmod : (b - a) % m = 0 := Nat.sub_mod_eq_zero_of_mod_eq h.symm
  rw [Nat.mod_eq_of_lt (by omega)] at hmod
  omega

/-- The place in the ring of LED `i` of batch `k` (R136). -/
theorem batch_mod {B i : Nat} (k : Nat) (hi : i < B) :
    (k * B + i) % (2 * B) = (if k % 2 = 0 then 0 else B) + i := by
  have hk : k * B + i = k % 2 * B + i + 2 * B * (k / 2) := by
    conv => lhs; rw [← Nat.mod_add_div k 2]
    ring
  rw [hk, Nat.add_mul_mod_self_left]
  rcases Nat.mod_two_eq_zero_or_one k with h | h <;> rw [h, Nat.mod_eq_of_lt (by omega)] <;> simp

/-- Settles O9: the ring holds two batches, so a batch's place in it is given by the parity of its number. -/
theorem batchesAlternateHalves : Obligations.BatchesAlternateHalves := by
  refine fun c led k i => ⟨rfl, fun hi => ?_⟩
  rw [wrPos_eq, batch_mod k hi]
  split <;> omega

/-- Entry `p` of the ring belongs to the LED at place `p / 24`. -/
theorem inLedRun_iff (c : Config) (led p : Nat) : inLedRun c led p ↔ p / 24 = led % (2 * c.batch) := by
  rw [inLedRun, wrPos_eq, bitsPerLed_eq]
  omega

/-- Stream position `n` stands in the ring at the run of LED `n / 24`. -/
theorem wrPos_add_mod (c : Config) (n : Nat) : wrPos c (n / 24) + n % 24 = n % c.bufLen := by
  rw [wrPos_eq, Config.bufLen_eq, show 48 * c.batch = 24 * (2 * c.batch) by omega, Nat.mod_mul (x := n), Nat.add_comm]

/-! ### Writing several LEDs -/

/-- `n` LEDs from `led` on, written into the ring one after the other: the loop of R130 without its test. -/
def encodeLeds (led n : Nat) (s : State) : State :=
  match n with
  | 0 => s
  | n + 1 => encodeLeds (led + 1) n (encodeLed led s)

/-- Writing LEDs changes the buffer and nothing else. -/
theorem encodeLeds_frame (led n : Nat) (s : State) :
    encodeLeds led n s = { s with mem := { color := s.mem.color, buf := (encodeLeds led n s).mem.buf } } := by
  induction n generalizing led s with
  | zero => rfl
  | succ n ih =>
    rw [encodeLeds, ih, encodeLed_frame]

@[simp] theorem encodeLeds_cfg (led n : Nat) (s : State) : (encodeLeds led n s).cfg = s.cfg := by
  rw [encodeLeds_frame]

theorem encodeLeds_append (led m n : Nat) (s : State) :
    encodeLeds led (m + n) s = encodeLeds (led + m) n (encodeLeds led m s) := by
  induction m generalizing led s with
  | zero => simp [encodeLeds]
  | succ m ih =>
    rw [Nat.succ_add, encodeLeds, ih, encodeLeds, Nat.add_right_comm, Nat.add_assoc]

theorem bufAt_encodeLeds_of_outside {led n : Nat} {s : State} {p : Nat}
    (h : ∀ i < n, ¬ inLedRun s.cfg (led + i) p) : (encodeLeds led n s).mem.bufAt p = s.mem.bufAt p := by
  induction n generalizing led s with
  | zero => rfl
  | succ n ih =>
    have first : ¬ (wrPos s.cfg led ≤ p ∧ p < wrPos s.cfg led + 24) := h 0 (Nat.succ_pos n)
    have rest : ∀ i < n, ¬ inLedRun (encodeLed led s).cfg (led + 1 + i) p := fun i hi => by
      have := h (i + 1) (Nat.succ_lt_succ hi)
      rwa [← Nat.add_assoc, Nat.add_right_comm] at this
    rw [encodeLeds, ih rest, encodeLed_mem, Memory.bufAt_writeRun, length_encodePulses, if_neg first]

theorem holdsLed_encodeLed (led : Nat) (s : State) : holdsLed s.cfg (encodeLed led s).mem led (s.mem.colorAt led) := by
  intro j hj
  have inside : wrPos s.cfg led ≤ wrPos s.cfg led + j ∧ wrPos s.cfg led + j < wrPos s.cfg led + 24 :=
    ⟨Nat.le_add_right _ _, Nat.add_lt_add_left hj _⟩
  rw [encodeLed_mem, Memory.bufAt_writeRun, length_encodePulses, if_pos inside, Nat.add_sub_cancel_left]

/-- At most a ring's worth of LEDs do not overwrite each other, so each run holds its LED in the end. -/
theorem holdsLed_encodeLeds {led n i : Nat} {s : State} (hn : n ≤ 2 * s.cfg.batch) (hi : i < n) :
    holdsLed s.cfg (encodeLeds led n s).mem (led + i) (s.mem.colorAt (led + i)) := by
  induction n generalizing led i s with
  | zero => omega
  | succ n ih =>
    rw [encodeLeds]
    cases i with
    | zero =>
      intro j hj
      rw [bufAt_encodeLeds_of_outside]
      · exact holdsLed_encodeLed led s j hj
      · intro k hk
        have inRun : inLedRun s.cfg led (wrPos s.cfg led + j) := ⟨by omega, by omega⟩
        rw [inLedRun_iff] at inRun
        rw [encodeLed_cfg, inLedRun_iff, Nat.add_zero, inRun]
        exact mod_ne_mod_of_lt (by omega) (by omega)
    | succ i =>
      have := ih (led := led + 1) (s := encodeLed led s) (Nat.le_of_succ_le hn) (Nat.lt_of_succ_lt_succ hi)
      rwa [encodeLed_cfg, encodeLed_mem, Memory.colorAt_writeRun, Nat.add_assoc, Nat.add_comm 1 i] at this

/-! ### Refill -/

theorem refillLoop_of_le {led n : Nat} {s : State} (h : led + n ≤ s.cfg.ledCount) :
    refillLoop led n s = .goesOn (encodeLeds led n s) := by
  induction n generalizing led s with
  | zero => rfl
  | succ n ih =>
    rw [refillLoop, if_pos (by omega)]
    exact ih (by rw [encodeLed_cfg]; omega)

/-- The loop stops at LED N, which does not exist, with the LEDs below N written (D15). -/
theorem refillLoop_of_gt {led n : Nat} {s : State} (hl : led ≤ s.cfg.ledCount) (h : s.cfg.ledCount < led + n) :
    refillLoop led n s = .ended (latchFault .contractViolation (encodeLeds led (s.cfg.ledCount - led) s)) := by
  induction n generalizing led s with
  | zero => omega
  | succ n ih =>
    rw [refillLoop]
    split
    case isTrue hlt =>
      rw [ih (by rw [encodeLed_cfg]; omega) (by rw [encodeLed_cfg]; omega), encodeLed_cfg,
        show s.cfg.ledCount - led = s.cfg.ledCount - (led + 1) + 1 by omega, encodeLeds]
    case isFalse hge =>
      rw [show s.cfg.ledCount - led = 0 by omega]
      rfl

section
variable {start count : Nat} {s : State}

theorem refill_of_le (hs : start < s.cfg.ledCount) (h : start + count ≤ s.cfg.ledCount) :
    refill start count s = .goesOn (encodeLeds start count s) := by
  rw [refill, if_pos ⟨hs, by omega⟩, refillLoop_of_le h]

theorem refill_of_gt (hs : start < s.cfg.ledCount) (hc : count ≤ s.cfg.ledCount)
    (h : s.cfg.ledCount < start + count) :
    refill start count s =
      .ended (latchFault .contractViolation (encodeLeds start (s.cfg.ledCount - start) s)) := by
  rw [refill, if_pos ⟨hs, hc⟩, refillLoop_of_gt hs.le h]

theorem refill_of_precondition (h : s.cfg.ledCount ≤ start ∨ s.cfg.ledCount < count) :
    refill start count s = .ended (latchFault .contractViolation s) := if_neg (by omega)

end

/-- Settles O10: below N the refill is the writing of its LEDs. -/
theorem refillWritesEachLed : Obligations.RefillWritesEachLed :=
  fun _ _ _ hs hle hcount => ⟨_, refill_of_le hs hle, fun _ hi => holdsLed_encodeLeds hcount hi,
    fun _ hp => bufAt_encodeLeds_of_outside hp, encodeLeds_frame _ _ _⟩

/-- Settles O11: the entry test of R132 fails and nothing has been written yet. -/
theorem refillPreconditionFaults : Obligations.RefillPreconditionFaults :=
  fun _ _ _ h => refill_of_precondition h

/-- Settles O12: the LEDs from `start` to N - 1 are written, then LED N raises the fault. -/
theorem refillPastLastLedFaults : Obligations.RefillPastLastLedFaults := by
  intro s start count hs hc hgt hroom
  refine ⟨_, refill_of_gt hs hc hgt, fun i hi => ?_, fun p hp => ?_, ?_⟩
  · exact holdsLed_encodeLeds hroom (by omega)
  · exact bufAt_encodeLeds_of_outside fun i hi => hp i (by omega)
  · rw [encodeLeds_frame]
    rfl

end Sys2Proof.Machine
end

section
/-! One step (`00_scope.md` R10, R37): what the head of the inputs makes it do. -/

namespace Sys2Proof.Machine

section
variable {s : State} {rest : List Input}

/-- A command word decodes to a command, if it decodes at all (R82). -/
theorem isCommand_of_decode {w : CmdWord} {i : Instr} (h : decode (.cmd w) = .ok i) : isCommand i = true := by
  have h : decodeCmd w = .ok i := h
  rcases opCodeNames_cases ((exists_decodeCmd_iff w).1 ⟨i, h⟩) with hop | hop | hop | hop | hop | hop
  · exact Except.ok.inj ((decodeCmd_init hop).symm.trans h) ▸ rfl
  · exact Except.ok.inj ((decodeCmd_setColor hop).symm.trans h) ▸ rfl
  · exact Except.ok.inj ((decodeCmd_setAll hop).symm.trans h) ▸ rfl
  · exact Except.ok.inj ((decodeCmd_allOff hop).symm.trans h) ▸ rfl
  · exact Except.ok.inj ((decodeCmd_update hop).symm.trans h) ▸ rfl
  · exact Except.ok.inj ((decodeCmd_getColor hop).symm.trans h) ▸ rfl

theorem heldBack_of_idle (w : OpWord) (h : s.bulk = none ∨ s.fault = true) : heldBack w s = false := by
  cases w with
  | cmd w => rcases h with h | h <;> simp [heldBack, h]
  | evt e => rfl
  | strobe t => rfl

theorem heldBack_of_decode {w : OpWord} {i : Instr} (hd : decode w = .ok i)
    (h : isCommand i = true → s.bulk = none ∨ s.fault = true) : heldBack w s = false := by
  cases w with
  | cmd w => exact heldBack_of_idle _ (h (isCommand_of_decode hd))
  | evt e => rfl
  | strobe t => rfl

theorem decode_eventBit (e : Event) : decode (.evt (eventBit e)) = .ok (eventInstr e) := by
  cases e <;> rfl

/-- The pending event's word, by the latch's code (R33, R84). -/
theorem pendingWord_of_some {e : Event} (hv : s.cfg.view = .closedView) (he : s.evtPend = some e) :
    pendingWord s = some (.evt (eventBit e)) := by
  cases e <;> simp [pendingWord, hv, he, evtPendCode, eventBit]

theorem pendingWord_of_none (h : s.cfg.view = .openView ∨ s.evtPend = none) : pendingWord s = none := by
  rcases h with h | h <;> simp [pendingWord, h, evtPendCode]

theorem step_of_nil (h : s.inputs = []) : step s = .next s := by simp [step, fetch, h]

theorem step_of_reset (h : s.inputs = .reset :: rest) : step s = .next (hardReset rest s) := by
  simp [step, fetch, h]

theorem step_of_task (h : s.inputs = .task :: rest) : step s = .next (taskContinue { s with inputs := rest }) := by
  simp [step, fetch, h]

theorem step_of_heldBack {w : OpWord} (h : s.inputs = .port w :: rest) (hw : heldBack w s = true) :
    step s = .next (taskContinue s) := by
  simp [step, fetch, h, hw]

theorem step_of_port {w : OpWord} {i : Instr} (h : s.inputs = .port w :: rest) (hw : heldBack w s = false)
    (hd : decode w = .ok i) : step s = exec i { s with inputs := rest } := by
  simp [step, fetch, h, hw, fetchWord, hd]

theorem step_of_irq {e : Event} (h : s.inputs = .irq :: rest) (hv : s.cfg.view = .closedView)
    (he : s.evtPend = some e) : step s = exec (eventInstr e) { s with inputs := rest } := by
  simp [step, fetch, h, pendingWord_of_some hv he, fetchWord, decode_eventBit]

theorem step_of_irq_none (h : s.inputs = .irq :: rest) (hn : s.cfg.view = .openView ∨ s.evtPend = none) :
    step s = .next { s with inputs := rest } := by
  simp [step, fetch, h, pendingWord_of_none hn]

end

/-- Settles O32: a decoded word on its port and the pending event on the interrupt agent's turn. -/
theorem stepRunsDecodedOperation : Obligations.StepRunsDecodedOperation :=
  fun _ _ => ⟨fun _ _ hin hd hfree => step_of_port hin (heldBack_of_decode hd hfree) hd,
    fun _ hin hv he => step_of_irq hin hv he⟩

/-- Settles O33: each head of the inputs that moves nobody. -/
theorem stepWithNothingToDo : Obligations.StepWithNothingToDo := by
  refine fun s rest => ⟨step_of_nil, fun hin => ?_, step_of_irq_none, fun hin h => ?_⟩
  · simp [step, fetch, hin, heldBack, fetchWord, decode]
  · rw [step_of_task hin]
    rcases h with h | h
    · exact congrArg Host.Outcome.next (taskContinue_of_none (s := { s with inputs := rest }) h)
    · exact congrArg Host.Outcome.next (taskContinue_of_fault (s := { s with inputs := rest }) h)

/-- Settles O34: a reserved op code decodes to no operation, and the state accepts commands. -/
theorem reservedOpAnswersIllegal : Obligations.ReservedOpAnswersIllegal := by
  intro s w rest hs hin hop
  have reserved : opCodeNames (opField w) = false := by
    simp only [opCodeNames, decide_eq_false_iff_not]
    bv_omega
  have hd : decode (.cmd w) = .error (.reservedOp (opField w)) := decodeCmd_reserved reserved
  have ready : TaskReady { s with inputs := rest } := hs
  simp [step, fetch, hin, heldBack_of_idle (.cmd w) (.inl hs.2), fetchWord, hd, illegalOp, accept_of_ready ready, answer]

/-- Settles O35: the reset input leaves the reset state, whose memories are empty. -/
theorem hardResetRestoresEverything : Obligations.HardResetRestoresEverything :=
  fun _ _ hin => ⟨_, step_of_reset hin, fun _ => rfl, fun _ => rfl, rfl, rfl, rfl, rfl, rfl, rfl, rfl, rfl, rfl, rfl,
    rfl, rfl, rfl, rfl, rfl, rfl⟩

end Sys2Proof.Machine
end

section
/-! The Colour Store commands (`41_colour_store.md`). -/

namespace Sys2Proof.Machine

/-- A command that is not accepted answers the state it finds (R190, R205). -/
theorem exec_of_not_ready {i : Instr} {s : State} (hi : isCommand i = true) (hs : ¬ TaskReady s) :
    exec i s = .next s := by
  cases i with
  | init ch => exact congrArg Host.Outcome.next (accept_of_not_ready hs _)
  | setColor idx r g b => exact congrArg Host.Outcome.next (accept_of_not_ready hs _)
  | setAll r g b => exact congrArg Host.Outcome.next (accept_of_not_ready hs _)
  | allOff => exact congrArg Host.Outcome.next (accept_of_not_ready hs _)
  | update => exact congrArg Host.Outcome.next (accept_of_not_ready hs _)
  | getColor idx => exact congrArg Host.Outcome.next (accept_of_not_ready hs _)
  | onHt => cases hi
  | onTc => cases hi
  | rdTick => cases hi

/-- Settles O24: neither a faulted state nor one with a command in progress is ready. -/
theorem commandNotAcceptedChangesNothing : Obligations.CommandNotAcceptedChangesNothing := by
  refine fun s i hi h => exec_of_not_ready hi fun ⟨hf, hb⟩ => ?_
  rcases h with h | h
  · rw [hf] at h
    cases h
  · exact h hb

section
variable {s : State} (hs : TaskReady s)
include hs

theorem exec_setColor_of_ready (idx : BitVec 16) (r g b : Byte) :
    exec (.setColor idx r g b) s = .next (setColorBody idx { r := r, g := g, b := b } s) :=
  congrArg Host.Outcome.next (accept_of_ready hs _)

theorem exec_getColor_of_ready (idx : BitVec 16) : exec (.getColor idx) s = .next (getColorBody idx s) :=
  congrArg Host.Outcome.next (accept_of_ready hs _)

/-- `SET_ALL` and `ALL_OFF` are the same bulk command, with the colour given or off (R111, R112). -/
theorem exec_bulk_of_ready {i : Instr} {c : Colour}
    (hi : i = .setAll c.r c.g c.b ∨ (i = .allOff ∧ c = Colour.off)) :
    exec i s = .next (bulkStep { colour := c, next := 0 } s) := by
  rcases hi with rfl | ⟨rfl, rfl⟩ <;> exact congrArg Host.Outcome.next (accept_of_ready hs _)

end

/-- Settles O14: in range the body is one write and the answer, out of range the answer alone. -/
theorem setColorStoresOneLed : Obligations.SetColorStoresOneLed := by
  intro s idx r g b hs
  rw [exec_setColor_of_ready hs]
  refine ⟨fun hlt => ?_, fun hge => ?_⟩
  · have body : setColorBody idx { r := r, g := g, b := b } s =
        answer .ok (writeColor idx.toNat { r := r, g := g, b := b } s) := if_pos hlt
    exact ⟨_, congrArg Host.Outcome.next body, fun i => Memory.colorAt_setColor _ _ _ _, fun _ => rfl, rfl⟩
  · exact congrArg Host.Outcome.next (if_neg (Nat.not_lt.2 hge))

/-- Settles O15: in range the answer carries the colour read, channel by channel (R113). -/
theorem getColorReadsOneLed : Obligations.GetColorReadsOneLed := by
  intro s idx hs
  rw [exec_getColor_of_ready hs]
  refine ⟨fun hlt => ⟨packRgb (s.mem.colorAt idx.toNat), congrArg Host.Outcome.next (if_pos hlt), ?_⟩, fun hge =>
    congrArg Host.Outcome.next (if_neg (Nat.not_lt.2 hge))⟩
  have append (c : Colour) : (packRgb c).toNat = (c.r ++ c.g ++ c.b).toNat := rfl
  rw [append, toNat_append_eq, toNat_append_eq]
  omega

/-! ### Bulk commands -/

section
variable {k : Bulk} {s : State}

theorem bulkStep_eq_more (h : k.next + 1 < s.cfg.ledCount) :
    bulkStep k s = { writeColor k.next k.colour s with bulk := some { k with next := k.next + 1 } } := if_pos h

theorem bulkStep_eq_last (h : k.next + 1 = s.cfg.ledCount) :
    bulkStep k s = answer .ok { writeColor k.next k.colour s with bulk := none } := by
  rw [bulkStep, if_neg (by omega), if_pos (by omega)]

theorem bulkStep_frame_of_more (h : k.next + 1 < s.cfg.ledCount) :
    bulkStep k s = { s with mem := (bulkStep k s).mem, bulk := some { k with next := k.next + 1 } } := by
  rw [bulkStep_eq_more h]
  rfl

theorem bulkStep_frame_of_last (h : k.next + 1 = s.cfg.ledCount) :
    bulkStep k s = { s with mem := (bulkStep k s).mem, bulk := none, rspStatus := .ok } := by
  rw [bulkStep_eq_last h]
  rfl

theorem mem_bulkStep (h : k.next < s.cfg.ledCount) : (bulkStep k s).mem = s.mem.setColor k.next k.colour := by
  by_cases hm : k.next + 1 < s.cfg.ledCount
  · rw [bulkStep_eq_more hm]
    rfl
  · rw [bulkStep_eq_last (by omega)]
    rfl

theorem colorAt_bulkStep (h : k.next < s.cfg.ledCount) (i : Nat) :
    (bulkStep k s).mem.colorAt i = if i = k.next then k.colour else s.mem.colorAt i := by
  rw [mem_bulkStep h, Memory.colorAt_setColor]

theorem bufAt_bulkStep (h : k.next < s.cfg.ledCount) (p : Nat) : (bulkStep k s).mem.bufAt p = s.mem.bufAt p := by
  rw [mem_bulkStep h, Memory.bufAt_setColor]

end

/-- Settles O16: the command's own meaning is the bulk step of LED 0. -/
theorem bulkCommandsStart : Obligations.BulkCommandsStart := by
  intro s i c hs hN hi
  refine ⟨_, exec_bulk_of_ready hs hi, colorAt_bulkStep hN, bufAt_bulkStep hN, fun h => ?_, fun h => ?_⟩
  · obtain ⟨-, idle⟩ := hs
    have last := bulkStep_frame_of_last (k := { colour := c, next := 0 }) h.symm
    rwa [← idle] at last
  · exact bulkStep_frame_of_more (k := { colour := c, next := 0 }) h

/-- The step of a bulk command in progress, on the TASK agent's turn or while a command word waits (R111, R205). -/
theorem step_of_bulk {s : State} {k : Bulk} {rest left : List Input} (hf : s.fault = false) (hb : s.bulk = some k)
    (hin : (s.inputs = .task :: rest ∧ left = rest) ∨ (∃ w, s.inputs = .port (.cmd w) :: rest ∧ left = s.inputs)) :
    step s = .next (bulkStep k { s with inputs := left }) := by
  rcases hin with ⟨hin, rfl⟩ | ⟨w, hin, rfl⟩
  · rw [step_of_task hin]
    exact congrArg Host.Outcome.next (taskContinue_of_some (s := { s with inputs := left }) hf hb)
  · rw [step_of_heldBack hin (by simp [heldBack, hb, hf]), taskContinue_of_some hf hb]

/-- Settles O17: both kinds of input lead to the bulk step of the next LED. -/
theorem bulkStepWritesNextLed : Obligations.BulkStepWritesNextLed :=
  fun s _ _ left hf hb hN hin => ⟨_, step_of_bulk hf hb hin, colorAt_bulkStep (s := { s with inputs := left }) hN,
    bufAt_bulkStep (s := { s with inputs := left }) hN, bulkStep_frame_of_more (s := { s with inputs := left }),
    bulkStep_frame_of_last (s := { s with inputs := left })⟩

/-- The TASK agent's `m` turns that finish a bulk command write its last `m` LEDs (R111). -/
theorem run_bulk {m : Nat} {s : State} {k : Bulk} {rest : List Input} (hf : s.fault = false) (hb : s.bulk = some k)
    (hm : k.next + (m + 1) = s.cfg.ledCount) (hin : s.inputs = List.replicate (m + 1) .task ++ rest) :
    ∃ t : State, core.run (m + 1) s = .next t ∧
      (∀ i, t.mem.colorAt i = if k.next ≤ i ∧ i < s.cfg.ledCount then k.colour else s.mem.colorAt i) ∧
      (∀ p, t.mem.bufAt p = s.mem.bufAt p) ∧
      t = { s with mem := t.mem, bulk := none, rspStatus := .ok, inputs := rest } := by
  induction m generalizing s k with
  | zero =>
    obtain ⟨t, hstep, hcolor, hbuf, -, hlast⟩ :=
      bulkStepWritesNextLed s k rest rest hf hb (by omega) (.inl ⟨hin, rfl⟩)
    refine ⟨t, run_succ_of_next hstep 0, fun i => ?_, hbuf, hlast hm⟩
    rw [hcolor]
    exact if_congr (by omega) rfl rfl
  | succ m ih =>
    obtain ⟨u, hstep, hcolor, hbuf, hmore, -⟩ :=
      bulkStepWritesNextLed s k _ (List.replicate (m + 1) .task ++ rest) hf hb (by omega) (.inl ⟨hin, rfl⟩)
    have hu := hmore (by omega)
    have hN : u.cfg.ledCount = s.cfg.ledCount := by rw [hu]
    obtain ⟨t, hrun, hcolor', hbuf', ht⟩ := ih (s := u) (k := { k with next := k.next + 1 })
      (by rw [hu]; exact hf) (by rw [hu]) (by rw [hN, ← hm]; exact Nat.add_right_comm _ _ _) (by rw [hu])
    refine ⟨t, (run_succ_of_next hstep _).trans hrun, fun i => ?_, fun p => (hbuf' p).trans (hbuf p), ?_⟩
    · rw [hcolor', hcolor, hN]
      dsimp only
      by_cases hi : i = k.next
      · rw [if_neg (by omega), if_pos hi, if_pos (by omega)]
      · rw [if_neg hi]
        exact if_congr (by omega) rfl rfl
    · rw [ht, hu]

/-- Settles O18: the command writes LED 0, and the TASK agent's turns write the LEDs from 1 on. -/
theorem bulkCommandsSetEveryLed : Obligations.BulkCommandsSetEveryLed := by
  intro s i c rest hs hN hi hin
  have idle : s.bulk = none := hs.2
  obtain ⟨n, hn⟩ : ∃ n, s.cfg.ledCount = n + 1 := ⟨_, (Nat.sub_add_cancel hN).symm⟩
  rw [hn, Nat.add_sub_cancel] at hin
  obtain ⟨u, hexec, hcolor, hbuf, hone, hmore⟩ :=
    bulkCommandsStart { s with inputs := List.replicate n .task ++ rest } i c hs hN hi
  have hstep : step s = .next u :=
    (step_of_port hin (heldBack_of_idle _ (.inl idle)) (decodeEncodeRoundTrip i)).trans hexec
  rw [hn, run_succ_of_next hstep]
  cases n with
  | zero =>
    refine ⟨u, rfl, fun k => ?_, hbuf, hone hn⟩
    rw [hcolor]
    exact if_congr (by omega) rfl rfl
  | succ m =>
    have hu := hmore (by show 2 ≤ s.cfg.ledCount; omega)
    have hN' : u.cfg.ledCount = m + 2 := by rw [hu]; exact hn
    obtain ⟨t, hrun, hcolor', hbuf', ht⟩ := run_bulk (m := m) (s := u) (k := { colour := c, next := 1 })
      (rest := rest) (by rw [hu]; exact hs.1) (by rw [hu]) (by rw [hN']; exact Nat.add_comm _ _) (by rw [hu])
    refine ⟨t, hrun, fun k => ?_, fun p => (hbuf' p).trans (hbuf p), ?_⟩
    · rw [hcolor', hcolor, hN']
      by_cases hk : k = 0
      · rw [if_neg (by simp [hk]), if_pos hk, if_pos (by omega)]
      · rw [if_neg hk]
        exact if_congr (by simp; omega) rfl rfl
    · rw [ht, hu, ← idle]

end Sys2Proof.Machine
end

section
/-! `INIT` and `UPDATE` (`45_update_trigger.md`): the tests in their order, and what the two refills of R162 come to. -/

namespace Sys2Proof.Machine

section
variable {s : State}

theorem exec_init_of_ready (hs : TaskReady s) (ch : BitVec 16) : exec (.init ch) s = .next (initBody ch s) :=
  congrArg Host.Outcome.next (accept_of_ready hs _)

theorem exec_update_of_ready (hs : TaskReady s) : exec .update s = .next (updateBody s) :=
  congrArg Host.Outcome.next (accept_of_ready hs _)

theorem updateBody_of_not_init (hi : s.initDone = false) : updateBody s = answer .notInit s := if_pos hi

theorem updateBody_of_busy (hi : s.initDone = true) (hu : updatingBit s.opFlags = true) :
    updateBody s = answer .ok s := by
  simp [updateBody, hi, hu]

/-! ### The two refills -/

theorem encodeLeds_zero_append (m n : Nat) : encodeLeds m n (encodeLeds 0 m s) = encodeLeds 0 (m + n) s := by
  rw [encodeLeds_append, Nat.zero_add]

/-- Where `UPDATE` goes on to its refills (R162). -/
theorem updateBody_of_idle (hi : s.initDone = true) (hu : updatingBit s.opFlags = false) :
    updateBody s = (((refill 0 s.cfg.batch s).andThen fun t => refill t.cfg.batch t.cfg.batch t).andThen
      fun t => .goesOn (beginStream t)).final := by
  simp [updateBody, hi, hu]

section
variable (hi : s.initDone = true) (hu : updatingBit s.opFlags = false)
include hi hu

theorem updateBody_of_two_batches (hN : 1 ≤ s.cfg.ledCount) (hB : 2 * s.cfg.batch ≤ s.cfg.ledCount) :
    updateBody s = beginStream (encodeLeds 0 (2 * s.cfg.batch) s) := by
  have first : refill 0 s.cfg.batch s = .goesOn (encodeLeds 0 s.cfg.batch s) := refill_of_le hN (by omega)
  have second : refill s.cfg.batch s.cfg.batch (encodeLeds 0 s.cfg.batch s) =
      .goesOn (encodeLeds 0 (2 * s.cfg.batch) s) := by
    rw [refill_of_le (by rw [encodeLeds_cfg]; omega) (by rw [encodeLeds_cfg]; omega), encodeLeds_zero_append,
      ← Nat.two_mul]
  rw [updateBody_of_idle hi hu, first]
  simp only [Flow.andThen, encodeLeds_cfg, second, Flow.final]

theorem updateBody_of_less_than_one_batch (h : s.cfg.ledCount = 0 ∨ s.cfg.ledCount < s.cfg.batch) :
    updateBody s = latchFault .contractViolation s := by
  rw [updateBody_of_idle hi hu, refill_of_precondition (by omega)]
  rfl

/-- The second refill stops at LED N, if not at its entry test (R165). -/
theorem updateBody_of_less_than_two_batches (hN : 0 < s.cfg.ledCount) (hB : s.cfg.batch ≤ s.cfg.ledCount)
    (h : s.cfg.ledCount < 2 * s.cfg.batch) :
    updateBody s = latchFault .contractViolation (encodeLeds 0 s.cfg.ledCount s) := by
  have first : refill 0 s.cfg.batch s = .goesOn (encodeLeds 0 s.cfg.batch s) := refill_of_le hN (by omega)
  have second : refill s.cfg.batch s.cfg.batch (encodeLeds 0 s.cfg.batch s) =
      .ended (latchFault .contractViolation (encodeLeds 0 s.cfg.ledCount s)) := by
    rcases hB.eq_or_lt with heq | hlt
    · rw [refill_of_precondition (by rw [encodeLeds_cfg]; omega), heq]
    · rw [refill_of_gt (by rwa [encodeLeds_cfg]) (by rwa [encodeLeds_cfg]) (by rw [encodeLeds_cfg]; omega),
        encodeLeds_cfg, encodeLeds_zero_append, Nat.add_sub_cancel' hB]
  rw [updateBody_of_idle hi hu, first]
  simp only [Flow.andThen, encodeLeds_cfg, second, Flow.final]

end

/-! ### The buffer after writing the first LEDs -/

theorem bufAt_encodeLeds_zero {n led j : Nat} (hn : n ≤ 2 * s.cfg.batch) (hl : led < n) (hj : j < 24) :
    (encodeLeds 0 n s).mem.bufAt (24 * led + j) = (encodePulses s.cfg (s.mem.colorAt led))[j]? := by
  have holds := holdsLed_encodeLeds (led := 0) (s := s) hn hl j hj
  rwa [Nat.zero_add, wrPos_eq, Nat.mod_eq_of_lt (by omega)] at holds

theorem bufAt_encodeLeds_zero_above {n p : Nat} (hn : n ≤ 2 * s.cfg.batch) (hp : 24 * n ≤ p) :
    (encodeLeds 0 n s).mem.bufAt p = s.mem.bufAt p := by
  refine bufAt_encodeLeds_of_outside fun i hi => ?_
  rw [inLedRun_iff, Nat.zero_add, Nat.mod_eq_of_lt (by omega)]
  omega

end

/-- Settles O19: of the two configuration tests the first never fails, since `BUF_LEN` is even by its definition. -/
theorem initChecksOnce : Obligations.InitChecksOnce := by
  intro s ch hs
  have even : s.cfg.bufLen % 2 = 0 := by
    rw [Config.bufLen_eq]
    omega
  rw [exec_init_of_ready hs]
  refine ⟨fun hi => ?_, fun hi hm => ?_, fun hi hm => ?_⟩
  · simp [initBody, hi, answer]
  · simp [initBody, hi, even, hm, answer]
  · simp [initBody, hi, even, hm, answer]

/-- Settles O20: both refills go on, and together write the first `2 × B` LEDs from entry 0. -/
theorem updateStartsTransmission : Obligations.UpdateStartsTransmission := by
  intro s hs hi hu hN hB
  refine ⟨_, (exec_update_of_ready hs).trans (congrArg _ (updateBody_of_two_batches hi hu hN hB)),
    fun led hl j hj => ?_, fun p hp => ?_, ?_⟩
  · exact bufAt_encodeLeds_zero le_rfl hl hj
  · rw [Config.bufLen_eq] at hp
    exact bufAt_encodeLeds_zero_above le_rfl (by omega)
  · rw [encodeLeds_frame]
    rfl

/-- Settles O21: the busy test comes before the refills (R163). -/
theorem updateWhileBusyIgnored : Obligations.UpdateWhileBusyIgnored :=
  fun _ hs hi hu => (exec_update_of_ready hs).trans (congrArg _ (updateBody_of_busy hi hu))

/-- Settles O22: the init test comes first (R162). -/
theorem updateBeforeInitRefused : Obligations.UpdateBeforeInitRefused :=
  fun _ hs hi => (exec_update_of_ready hs).trans (congrArg _ (updateBody_of_not_init hi))

/-- Settles O23: without a whole batch the first refill faults at its entry test; with one, the second faults at LED N. -/
theorem updateBelowTwoBatchesFaults : Obligations.UpdateBelowTwoBatchesFaults := by
  intro s hs hi hu h
  rw [exec_update_of_ready hs]
  by_cases hnone : s.cfg.ledCount = 0 ∨ s.cfg.ledCount < s.cfg.batch
  · exact ⟨_, congrArg _ (updateBody_of_less_than_one_batch hi hu hnone), fun hB led hl => by omega,
      fun _ _ => rfl, rfl⟩
  · have hroom : s.cfg.ledCount ≤ 2 * s.cfg.batch := by omega
    refine ⟨_, congrArg _ (updateBody_of_less_than_two_batches hi hu (by omega) (by omega) (by omega)),
      fun _ led hl j hj => ?_, fun p hp => ?_, ?_⟩
    · exact bufAt_encodeLeds_zero hroom hl hj
    · exact bufAt_encodeLeds_zero_above hroom (by omega)
    · rw [encodeLeds_frame]
      rfl

end Sys2Proof.Machine
end

section
/-! The handling of an event (`44_state_machine.md`), case by case. -/

namespace Sys2Proof.Machine

section
variable {e : Event} {s : State}

theorem handle_of_stop (hd : dmaStopBit s.opFlags = true) : handle e s = stopCase s := if_pos hd

theorem handle_of_gap (hd : dmaStopBit s.opFlags = false) (hr : resetSignalBit s.opFlags = true) :
    handle e s = gapCase e s := by
  simp [handle, hd, hr]

theorem handle_of_stream (hd : dmaStopBit s.opFlags = false) (hr : resetSignalBit s.opFlags = false) :
    handle e s = streamCase s := by
  simp [handle, hd, hr]

theorem streamCase_of_le (hs : s.prog < s.cfg.ledCount) (h : s.prog + s.cfg.batch ≤ s.cfg.ledCount) :
    streamCase s = countBatch (encodeLeds s.prog s.cfg.batch s) := by
  rw [streamCase, refill_of_le hs h]
  rfl

theorem streamCase_of_precondition (h : s.cfg.ledCount ≤ s.prog ∨ s.cfg.ledCount < s.cfg.batch) :
    streamCase s = latchFault .contractViolation s := by
  rw [streamCase, refill_of_precondition h]
  rfl

theorem streamCase_of_gt (hs : s.prog < s.cfg.ledCount) (hB : s.cfg.batch ≤ s.cfg.ledCount)
    (h : s.cfg.ledCount < s.prog + s.cfg.batch) :
    streamCase s = latchFault .contractViolation (encodeLeds s.prog (s.cfg.ledCount - s.prog) s) := by
  rw [streamCase, refill_of_gt hs hB h]
  rfl

theorem countGap_eq (s : State) :
    countGap s = { s with
      rstCnt := s.rstCnt + 1
      opFlags := if s.cfg.resetIrqThreshold ≤ s.rstCnt + 1 then withDmaStop s.opFlags else s.opFlags } := by
  unfold countGap
  split <;> rfl

theorem countBatch_eq (s : State) :
    countBatch s = { s with
      prog := s.prog + s.cfg.batch
      opFlags := if s.cfg.ledCount ≤ s.prog + s.cfg.batch then withResetSignal s.opFlags else s.opFlags } := by
  unfold countBatch
  split <;> rfl

/-- An enabled event is handled with the latch already as it will be left (R147, R148). -/
theorem exec_event_of_enabled (he : EventEnabled e s) :
    exec (eventInstr e) s = .next (handle e { s with evtPend := latchAfter s }) := by
  rw [exec_eventInstr, takeEvent_of_enabled he, clearPending_eq_latchAfter]

theorem exec_event_of_stop (he : EventEnabled e s) (hd : dmaStopBit s.opFlags = true) :
    exec (eventInstr e) s = .next (stopCase { s with evtPend := latchAfter s }) :=
  (exec_event_of_enabled he).trans (congrArg _ (handle_of_stop hd))

theorem exec_event_of_gap (he : EventEnabled e s) (hd : dmaStopBit s.opFlags = false)
    (hr : resetSignalBit s.opFlags = true) :
    exec (eventInstr e) s = .next (gapCase e { s with evtPend := latchAfter s }) :=
  (exec_event_of_enabled he).trans (congrArg _ (handle_of_gap hd hr))

theorem exec_event_of_stream (he : EventEnabled e s) (hd : dmaStopBit s.opFlags = false)
    (hr : resetSignalBit s.opFlags = false) :
    exec (eventInstr e) s = .next (streamCase { s with evtPend := latchAfter s }) :=
  (exec_event_of_enabled he).trans (congrArg _ (handle_of_stream hd hr))

theorem exec_event_of_not_enabled (he : ¬ EventEnabled e s) : exec (eventInstr e) s = .next s := by
  rw [exec_eventInstr, takeEvent_of_not_enabled he]

/-- The half that an event vacates, as the entries below or from `halfLen` on (R141). -/
theorem inHalf_vacated_iff (c : Config) (e : Event) (p : Nat) :
    inHalf c (vacated e) p ↔ (e = .ht ∧ p < c.halfLen) ∨ (e = .tc ∧ c.halfLen ≤ p ∧ p < c.bufLen) := by
  rw [Config.bufLen_eq_two_halves]
  cases e <;> simp [inHalf, vacated, halfBase, Nat.two_mul]

end

/-- Settles O25: DMA_STOP is the first of the tests. -/
theorem stopCaseEndsTransmission : Obligations.StopCaseEndsTransmission :=
  fun _ _ he hd => exec_event_of_stop he hd

/-- Settles O26: the vacated half is zeroed, then counted. -/
theorem gapCaseZeroesVacatedHalf : Obligations.GapCaseZeroesVacatedHalf := by
  intro e s he hd hr
  refine ⟨_, exec_event_of_gap he hd hr, fun p => ?_, ?_⟩
  · rw [gapCase, countGap_eq]
    refine (bufAt_zeroHalf _ _ p).trans ?_
    rw [if_congr (inHalf_vacated_iff _ e p) rfl rfl]
    rfl
  · rw [gapCase, countGap_eq, zeroHalf_frame]
    rfl

/-- Settles O27: the refill goes on below N; it fails at its entry test or at LED N. -/
theorem streamCaseRefillsNextBatch : Obligations.StreamCaseRefillsNextBatch := by
  intro e s he hd hr
  rw [exec_event_of_stream he hd hr]
  refine ⟨fun hs hle => ?_, fun h => ?_⟩
  · refine ⟨_, congrArg _ (streamCase_of_le hs hle), fun i hi => ?_, fun p hp => ?_, ?_⟩ <;> rw [countBatch_eq]
    · exact holdsLed_encodeLeds (s := { s with evtPend := latchAfter s }) (Nat.le_mul_of_pos_left _ Nat.two_pos) hi
    · exact bufAt_encodeLeds_of_outside (s := { s with evtPend := latchAfter s }) hp
    · rw [encodeLeds_frame]
      rfl
  · by_cases hpre : s.cfg.ledCount ≤ s.prog ∨ s.cfg.ledCount < s.cfg.batch
    · exact ⟨_, congrArg _ (streamCase_of_precondition hpre), fun hB i _ hi => by omega, fun _ _ => rfl, rfl⟩
    · have hs : s.prog < s.cfg.ledCount := by omega
      have hB : s.cfg.batch ≤ s.cfg.ledCount := by omega
      have hgt : s.cfg.ledCount < s.prog + s.cfg.batch := by omega
      have hroom : s.cfg.ledCount - s.prog ≤ 2 * s.cfg.batch := by omega
      refine ⟨_, congrArg _ (streamCase_of_gt hs hB hgt), fun _ i _ hi => ?_, fun p hp => ?_, ?_⟩
      · have hi : i < s.cfg.ledCount - s.prog := by omega
        exact holdsLed_encodeLeds (s := { s with evtPend := latchAfter s }) hroom hi
      · refine bufAt_encodeLeds_of_outside (s := { s with evtPend := latchAfter s }) fun i hi => ?_
        have hi : i < s.cfg.ledCount - s.prog := hi
        exact hp.resolve_left (by omega) i (by omega) (by omega)
      · rw [encodeLeds_frame]
        rfl

/-- Settles O28: in both cases the event's guard fails. -/
theorem eventNotEnabledChangesNothing : Obligations.EventNotEnabledChangesNothing := by
  refine fun e s h => exec_event_of_not_enabled fun ⟨hf, hp⟩ => ?_
  rcases h with h | ⟨hv, hne⟩
  · rw [hf] at h
    cases h
  · rcases hp with hp | hp
    · rw [hv] at hp
      cases hp
    · exact hne hp

end Sys2Proof.Machine
end

section
/-! The read tick (`46_stream_port.md` R174, R175). -/

namespace Sys2Proof.Machine

section
variable {s : State}

theorem exec_rdTick_of_entry {d : Duty} (h : TickEnabled s) (hp : s.rdPtr < s.cfg.bufLen)
    (hd : s.mem.bufAt s.rdPtr = some d) : exec .rdTick s = .next (boundaryEvent (streamOut d s)) := by
  have hx : exec .rdTick s = execRdTick s := rfl
  rw [hx, execRdTick, if_pos h, if_pos hp, hd]

/-- The cursor goes round the ring (R175). -/
theorem cursor_advance {c : Config} {p : Nat} (hp : p < c.bufLen) :
    (p + 1) % c.bufLen = if p + 1 = c.bufLen then 0 else p + 1 := by
  split
  case isTrue h => rw [h, Nat.mod_self]
  case isFalse h => exact Nat.mod_eq_of_lt (by omega)

theorem raiseEvent_of_fault {e : Event} (hf : s.fault = true) : raiseEvent e s = s := if_pos hf

theorem raiseEvent_of_free {e : Event} (hf : s.fault = false) (hp : s.evtPend = none) :
    raiseEvent e s = { s with evtPend := some e } := by
  simp [raiseEvent, hf, hp]

theorem raiseEvent_of_pending {e : Event} (hf : s.fault = false) (hp : s.evtPend ≠ none) :
    raiseEvent e s = latchFault .overrun s := by
  simp [raiseEvent, hf, hp]

theorem boundaryEvent_of_fault (hf : s.fault = true) : boundaryEvent s = s := by
  unfold boundaryEvent
  rw [raiseEvent_of_fault hf, raiseEvent_of_fault hf, ite_self, ite_self]

theorem boundaryEvent_inside (h : s.rdPtr ≠ s.cfg.halfLen ∧ s.rdPtr ≠ 0) : boundaryEvent s = s := by
  rw [boundaryEvent, if_neg h.1, if_neg h.2]

theorem boundaryEvent_half (h : s.rdPtr = s.cfg.halfLen) : boundaryEvent s = raiseEvent .ht s := if_pos h

theorem boundaryEvent_end (hL : s.cfg.halfLen ≠ 0) (h : s.rdPtr = 0) : boundaryEvent s = raiseEvent .tc s := by
  rw [boundaryEvent, if_neg (by omega), if_pos h]

end

/-- Settles O30: the entry is put out, and the new cursor decides about the event. -/
theorem tickStreamsOneEntry : Obligations.TickStreamsOneEntry := by
  intro s d q he hp hd hq
  have cursor : (streamOut d s).rdPtr = q := (cursor_advance hp).trans hq.symm
  have out : streamOut d s = { s with outDuty := d, rdPtr := q, trace := s.trace ++ [d] } := by rw [← cursor]; rfl
  have half : (streamOut d s).cfg.halfLen ≠ 0 := by
    rw [Config.bufLen_eq_two_halves] at hp
    rw [streamOut_cfg]
    omega
  rw [exec_rdTick_of_entry he hp hd]
  refine ⟨fun h => ?_, fun hf hn hb => ?_, fun hf hn hb => ?_, fun hf hn hb => ?_⟩
  · rcases h with hf | hin
    · rw [boundaryEvent_of_fault (s := streamOut d s) hf, out]
    · rw [← cursor] at hin
      rw [boundaryEvent_inside hin, out]
  · rw [boundaryEvent_half (cursor.trans hb), raiseEvent_of_free (s := streamOut d s) hf hn, out]
  · rw [boundaryEvent_end half (cursor.trans hb), raiseEvent_of_free (s := streamOut d s) hf hn, out]
  · have overrun (e : Event) : raiseEvent e (streamOut d s) = latchFault .overrun (streamOut d s) :=
      raiseEvent_of_pending (s := streamOut d s) hf hn
    rcases hb with hb | hb
    · rw [boundaryEvent_half (cursor.trans hb), overrun, out]
      rfl
    · rw [boundaryEvent_end half (cursor.trans hb), overrun, out]
      rfl

/-- Settles O31: the three tests of the tick that do not lead to a read value. -/
theorem tickOffOrStops : Obligations.TickOffOrStops := by
  intro s
  have hx : exec .rdTick s = execRdTick s := rfl
  rw [hx, execRdTick]
  refine ⟨fun h => if_neg h, fun h hp hd => ?_, fun h hp => ?_⟩
  · rw [if_pos h, if_pos hp, hd]
  · rw [if_pos h, if_neg (by omega)]

end Sys2Proof.Machine
end

section
/-! The canonical form of the memories: every step keeps it, whatever the configuration. -/

namespace Sys2Proof.Machine

/-- What holds before a run of statements and of each statement's result holds at its end. -/
theorem Flow.final_andThen {P : State → Prop} {x : Flow} {f : State → Flow} (hx : P x.final)
    (hf : ∀ s, P s → P (f s).final) : P (x.andThen f).final := by
  cases x with
  | goesOn s => exact hf s hx
  | ended s => exact hx

/-- A state of configuration `c` whose memories are canonical. -/
def Canonical (c : Config) (s : State) : Prop := s.cfg = c ∧ s.mem.wf c

/-- One batch keeps the form: with B = 0 there is no LED to write, and otherwise each run has room in the ring. -/
theorem Canonical.refill_batch {c : Config} {s : State} (h : Canonical c s) (start : Nat) :
    Canonical c (refill start c.batch s).final := by
  obtain ⟨rfl, hm⟩ := h
  constructor
  · rcases refill_cases start s.cfg.batch s with ⟨m, hr⟩ | ⟨m, hr⟩ <;> rw [hr] <;> rfl
  · rcases Nat.eq_zero_or_pos s.cfg.batch with hB | hB
    · rw [hB, refill]
      split
      · exact hm
      · exact hm
    · exact refill_wf start s.cfg.batch s hB hm

theorem Canonical.streamCase {c : Config} {s : State} (h : Canonical c s) : Canonical c (streamCase s) := by
  have hc : s.cfg = c := h.1
  rw [Machine.streamCase, hc]
  refine Flow.final_andThen (h.refill_batch s.prog) fun t ht => ?_
  rw [countBatch_eq]
  exact ht

theorem Canonical.updateBody {c : Config} {s : State} (h : Canonical c s) : Canonical c (updateBody s) := by
  by_cases hi : s.initDone = false
  · rw [updateBody_of_not_init hi]
    exact h
  have hi : s.initDone = true := by simpa using hi
  by_cases hu : updatingBit s.opFlags = true
  · rw [updateBody_of_busy hi hu]
    exact h
  rw [updateBody_of_idle hi (by simpa using hu)]
  have hc : s.cfg = c := h.1
  rw [hc]
  refine Flow.final_andThen (Flow.final_andThen (h.refill_batch 0) fun t ht => ?_) fun t ht => ht
  have hc : t.cfg = c := ht.1
  rw [hc]
  exact ht.refill_batch c.batch

theorem Canonical.takeEvent {c : Config} {s : State} (h : Canonical c s) (e : Event) : Canonical c (takeEvent e s) := by
  by_cases he : EventEnabled e s
  · rw [takeEvent_of_enabled he, clearPending_eq_latchAfter]
    have h' : Canonical c { s with evtPend := latchAfter s } := h
    rcases handle_cases e { s with evtPend := latchAfter s } with ⟨-, hh⟩ | ⟨-, -, hh⟩ | ⟨-, -, hh⟩ <;> rw [hh]
    · exact h'
    · rw [gapCase, countGap_eq]
      obtain ⟨rfl, hm⟩ := h'
      exact ⟨rfl, zeroHalf_wf (vacated e) _ hm⟩
    · exact h'.streamCase
  · rw [takeEvent_of_not_enabled he]
    exact h

theorem Canonical.bulkCase {c : Config} {k : Bulk} {s t : State} (h : Canonical c s) (hb : BulkCase k s t) :
    Canonical c t := by
  obtain ⟨rfl, hm⟩ := h
  cases hb with
  | more hk ht => exact ht ▸ ⟨rfl, Memory.wf_setColor hm (by omega) _⟩
  | last hk ht => exact ht ▸ ⟨rfl, Memory.wf_setColor hm (by omega) _⟩
  | past _ ht => exact ht ▸ ⟨rfl, hm⟩

theorem Canonical.tickCase {c : Config} {s t : State} (h : Canonical c s) (ht : TickCase s t) : Canonical c t := by
  cases ht with
  | notEnabled _ ht => exact ht ▸ h
  | quiet _ _ _ _ _ ht => exact ht ▸ h
  | raised _ _ _ _ _ _ _ _ ht => exact ht ▸ h
  | overrun _ _ _ _ _ _ ht => exact ht ▸ h

theorem Canonical.exec {c : Config} {i : Instr} {s t : State} (h : Canonical c s) (hx : exec i s = .next t) :
    Canonical c t := by
  cases exec_cases hx with
  | command _ hc =>
    cases hc with
    | notAccepted _ ht => exact ht ▸ h
    | answered _ _ ht => exact ht ▸ h
    | inited _ _ _ _ _ ht => exact ht ▸ h
    | colourSet n x _ _ hn ht =>
      obtain ⟨rfl, hm⟩ := h
      exact ht ▸ ⟨rfl, Memory.wf_setColor hm hn x⟩
    | bulkStarted _ _ _ hb => exact h.bulkCase hb
    | colourRead _ _ _ _ ht => exact ht ▸ h
    | streamStarted _ hi hs _ _ _ =>
      rw [hi, exec_update_of_ready hs, Host.Outcome.next.injEq] at hx
      exact hx ▸ h.updateBody
    | updateFaulted _ hi hs _ _ =>
      rw [hi, exec_update_of_ready hs, Host.Outcome.next.injEq] at hx
      exact hx ▸ h.updateBody
  | event e hi _ =>
    rw [hi, exec_eventInstr, Host.Outcome.next.injEq] at hx
    exact hx ▸ h.takeEvent e
  | tick _ ht => exact h.tickCase ht

/-- Settles O37: in every case of a step the memories keep the form, and after a reset they are empty. -/
theorem stepKeepsMemoryCanonical : Obligations.StepKeepsMemoryCanonical := by
  intro s t hm hx
  have h : Canonical s.cfg s := ⟨rfl, hm⟩
  have keeps : Canonical s.cfg t := by
    cases step_stepCase hx with
    | quiet _ ht => exact ht ▸ h
    | reset rest _ ht => exact ht ▸ ⟨rfl, Memory.wf_reset s.cfg⟩
    | bulk l k _ _ hb => exact Canonical.bulkCase (s := { s with inputs := l }) h hb
    | illegal _ _ ht => exact ht ▸ h
    | ran l i hx => exact Canonical.exec (s := { s with inputs := l }) h hx
  obtain ⟨hc, hm'⟩ := keeps
  exact hc ▸ hm'

end Sys2Proof.Machine
end

section
/-! What the operations leave alone, each read off the inversion lemmas. -/

namespace Sys2Proof.Machine

theorem eventInstr_eq (e : Event) : eventInstr e = .onHt ∨ eventInstr e = .onTc := by
  cases e
  · exact .inl rfl
  · exact .inr rfl

/-- In a fault no operation but the read tick moves, and the tick raises nothing (R190, R174). -/
theorem exec_of_fault {i : Instr} {s t : State} (hf : s.fault = true) (hx : exec i s = .next t) :
    t = { s with outDuty := t.outDuty, rdPtr := t.rdPtr, trace := t.trace } := by
  have notReady : ¬ TaskReady s := fun h => by simp [h.1] at hf
  have noFault : s.fault ≠ false := by simp [hf]
  cases exec_cases hx with
  | command hi _ =>
    rw [exec_of_not_ready hi notReady, Host.Outcome.next.injEq] at hx
    rw [← hx]
  | event e hi _ =>
    rw [hi, exec_event_of_not_enabled fun h => noFault h.1, Host.Outcome.next.injEq] at hx
    rw [← hx]
  | tick _ ht =>
    cases ht with
    | notEnabled _ ht => rw [ht]
    | quiet _ _ _ _ _ ht => rw [ht]; rfl
    | raised _ _ _ _ _ h _ _ _ => exact absurd h noFault
    | overrun _ _ _ _ h _ _ => exact absurd h noFault

/-- Settles O38: a fault shuts out every case of a step but the operations, and those are frozen. -/
theorem faultIsStickyAndFreezes : Obligations.FaultIsStickyAndFreezes := by
  intro s t hf hr hx
  have noFault : s.fault ≠ false := by simp [hf]
  cases step_stepCase hx with
  | quiet _ ht => rw [ht]
  | reset _ hin _ => exact absurd (by rw [hin]; rfl) hr
  | bulk _ _ h _ _ => exact absurd h noFault
  | illegal _ h _ => exact absurd h.1 noFault
  | ran l i hx =>
    have frozen := exec_of_fault (s := { s with inputs := l }) hf hx
    rw [frozen]

/-- A read tick writes the read port, the latch and the fault, and nothing else (R175). -/
theorem TickCase.frame {s t : State} (h : TickCase s t) :
    t = { s with
      outDuty := t.outDuty
      rdPtr := t.rdPtr
      trace := t.trace
      evtPend := t.evtPend
      fault := t.fault
      faultCause := t.faultCause } := by
  cases h <;> subst_vars <;> rfl

/-- An event writes nothing that belongs to the commands or to the read cursor (R140). -/
theorem EventCase.frame {e : Event} {s t : State} (h : EventCase e s t) :
    t = { s with
      mem := { color := s.mem.color, buf := t.mem.buf }
      prog := t.prog
      opFlags := t.opFlags
      rstCnt := t.rstCnt
      dmaRun := t.dmaRun
      outDuty := t.outDuty
      evtPend := t.evtPend
      fault := t.fault
      faultCause := t.faultCause } := by
  cases h with
  | gap _ _ ht => rw [ht, countGap_eq]
  | stream _ _ ht => rw [ht, countBatch_eq]
  | _ => subst_vars; rfl

/-- Only the stop case clears `dma_run` (R145, R172). -/
theorem EventCase.dmaRun_eq {e : Event} {s t : State} (h : EventCase e s t) :
    t.dmaRun = s.dmaRun ∨ (dmaStopBit s.opFlags = true ∧ t.dmaRun = false) := by
  cases h with
  | stop _ hd ht => exact .inr ⟨hd, by rw [ht]; rfl⟩
  | gap _ _ ht => exact .inl (by rw [ht, countGap_eq])
  | stream _ _ ht => exact .inl (by rw [ht, countBatch_eq])
  | _ => exact .inl (by subst_vars; rfl)

/-- The streaming case adds a batch to the Progress Counter and the stop case clears it (R143, R145). -/
theorem EventCase.prog_eq {e : Event} {s t : State} (h : EventCase e s t) :
    t.prog = s.prog ∨ t.prog = s.prog + s.cfg.batch ∨ t.prog = 0 := by
  cases h with
  | stop _ _ ht => exact .inr (.inr (by rw [ht]; rfl))
  | gap _ _ ht => exact .inl (by rw [ht, countGap_eq])
  | stream _ _ ht => exact .inr (.inl (by rw [ht, countBatch_eq]))
  | _ => exact .inl (by subst_vars; rfl)

/-- What a command may change beside starting the stream: the colours, the registers of the commands and the inputs (R61). -/
abbrev TaskOnly (s t : State) : Prop :=
  t = { s with
    mem := { color := t.mem.color, buf := s.mem.buf }
    initDone := t.initDone
    channel := t.channel
    rspStatus := t.rspStatus
    rspData := t.rspData
    bulk := t.bulk
    inputs := t.inputs }

theorem BulkCase.taskOnly {k : Bulk} {s t : State} (h : BulkCase k s t) : TaskOnly s t := by
  obtain ⟨_, _, _, ht⟩ := h.frame
  rw [ht]

/-- A command leaves the transmission alone unless it is `UPDATE` with UPDATING clear, which starts the stream or faults
(R61, R165). -/
theorem CommandCase.frame {i : Instr} {s t : State} (h : CommandCase i s t) :
    TaskOnly s t ∨ (i = .update ∧ TaskReady s ∧ updatingBit s.opFlags = false ∧
      ((t.prog = 2 * s.cfg.batch ∧ t.dmaRun = true) ∨ (t.prog = s.prog ∧ t.dmaRun = s.dmaRun))) := by
  cases h with
  | bulkStarted _ _ _ hb => exact .inl hb.taskOnly
  | streamStarted _ hi hs _ hu ht => exact .inr ⟨hi, hs, hu, .inl (by simp [ht])⟩
  | updateFaulted _ hi hs hu ht => exact .inr ⟨hi, hs, hu, .inr (by simp [ht])⟩
  | _ => exact .inl (by subst_vars; rfl)

theorem CommandCase.color_eq {i : Instr} {s t : State} (h : CommandCase i s t) (hw : writesColours i = false) :
    t.mem.color = s.mem.color := by
  have noSetter : writesColours i ≠ true := by simp [hw]
  cases h with
  | colourSet _ _ _ hi _ _ => exact absurd hi noSetter
  | bulkStarted _ _ hi _ => exact absurd hi noSetter
  | _ => subst_vars; rfl

theorem CommandCase.rspData_eq {i : Instr} {s t : State} (h : CommandCase i s t) (hi : ∀ idx, i ≠ .getColor idx) :
    t.rspData = s.rspData := by
  cases h with
  | bulkStarted _ _ _ hb =>
    obtain ⟨_, _, _, ht⟩ := hb.frame
    rw [ht]
  | colourRead idx _ h _ _ => exact absurd h (hi idx)
  | _ => subst_vars; rfl

/-- Settles O39: of the commands only the setters write colours, and no event or tick does. -/
theorem onlySettersWriteColours : Obligations.OnlySettersWriteColours := by
  intro i s t hw hx
  cases exec_cases hx with
  | command _ hc => exact hc.color_eq hw
  | event _ _ he => rw [he.frame]
  | tick _ ht => rw [ht.frame]

/-- Settles O40: `UPDATE` sets the counter where it starts the stream, and an event adds a batch or stops. -/
theorem progressCounterWrites : Obligations.ProgressCounterWrites := by
  intro i s t hx
  cases exec_cases hx with
  | command _ hc =>
    rcases hc.frame with ht | ⟨hi, -, -, ⟨hp, -⟩ | ⟨hp, -⟩⟩
    · exact .inl (by rw [ht])
    · exact .inr (.inl ⟨hi, hp⟩)
    · exact .inl hp
  | event e hi he =>
    rcases he.prog_eq with hp | hp
    · exact .inl hp
    · exact .inr (.inr ⟨hi ▸ eventInstr_eq e, hp⟩)
  | tick _ ht => exact .inl (by rw [ht.frame])

/-- Settles O41: with UPDATING set `UPDATE` is no exception either. -/
theorem busyCommandsLeaveTransmissionAlone : Obligations.BusyCommandsLeaveTransmissionAlone := by
  intro i s t hi hu hx
  rcases (command_cases hi hx).frame with ht | ⟨-, -, h, -⟩
  · rw [ht]
    exact ⟨rfl, rfl, rfl, rfl, rfl, rfl, rfl, rfl, rfl⟩
  · rw [hu] at h
    cases h

/-- How `dma_run` can move: `UPDATE` sets it, and the stop case clears it (R171, R172, R228). -/
theorem exec_dmaRun {i : Instr} {s t : State} (hx : exec i s = .next t) :
    t.dmaRun = s.dmaRun ∨ (i = .update ∧ t.dmaRun = true) ∨
    ((i = .onHt ∨ i = .onTc) ∧ dmaStopBit s.opFlags = true ∧ t.dmaRun = false) := by
  cases exec_cases hx with
  | command _ hc =>
    rcases hc.frame with ht | ⟨hi, -, -, ⟨-, hr⟩ | ⟨-, hr⟩⟩
    · exact .inl (by rw [ht])
    · exact .inr (.inl ⟨hi, hr⟩)
    · exact .inl hr
  | event e hi he =>
    rcases he.dmaRun_eq with hr | hr
    · exact .inl hr
    · exact .inr (.inr ⟨hi ▸ eventInstr_eq e, hr⟩)
  | tick _ ht => exact .inl (by rw [ht.frame])

/-- Settles O42: the two ways in which `dma_run` moves, told apart by its value. -/
theorem onlyUpdateStartsOnlyEventsStop : Obligations.OnlyUpdateStartsOnlyEventsStop := by
  intro i s t hx
  rcases exec_dmaRun hx with h | ⟨hi, h⟩ | ⟨hi, hd, h⟩ <;> rw [h]
  · exact ⟨fun h0 h1 => by simp [h0] at h1, fun h1 h0 => by simp [h1] at h0⟩
  · exact ⟨fun _ _ => hi, fun _ => nofun⟩
  · exact ⟨fun _ => nofun, fun _ _ => ⟨hi, hd⟩⟩

/-- Settles O43: events and ticks write neither register, and of the commands only `GET_COLOR` writes `rsp_data`. -/
theorem responseRegistersWrittenByCommandsOnly : Obligations.ResponseRegistersWrittenByCommandsOnly := by
  intro i s t hx
  cases exec_cases hx with
  | command hi hc => exact ⟨fun h => by simp [hi] at h, hc.rspData_eq⟩
  | event _ _ he => exact ⟨fun _ => by rw [he.frame], fun _ => by rw [he.frame]⟩
  | tick _ ht => exact ⟨fun _ => by rw [ht.frame], fun _ => by rw [ht.frame]⟩

end Sys2Proof.Machine
end

section
/-! The channel register and the outputs (`46_stream_port.md` R173, R179; `10_state.md` R33, R34, R36). -/

namespace Sys2Proof.Machine

/-- The state with another channel. -/
def withChannel (ch : BitVec 16) (s : State) : State := { s with channel := ch }

/-- The statements `f` do the same whatever the channel is. -/
def IgnoresChannel (f : State → State) : Prop := ∀ ch s, f (withChannel ch s) = withChannel ch (f s)

theorem encodeLeds_ignoresChannel (led n : Nat) : IgnoresChannel (encodeLeds led n) := by
  intro ch s
  induction n generalizing led s with
  | zero => rfl
  | succ n ih => exact ih (led + 1) (encodeLed led s)

theorem raiseEvent_ignoresChannel (e : Event) : IgnoresChannel (raiseEvent e) := by
  intro ch s
  rw [raiseEvent, raiseEvent, apply_ite (withChannel ch), apply_ite (withChannel ch)]
  rfl

theorem boundaryEvent_ignoresChannel : IgnoresChannel boundaryEvent := by
  intro ch s
  rw [boundaryEvent, boundaryEvent, raiseEvent_ignoresChannel, raiseEvent_ignoresChannel, apply_ite (withChannel ch),
    apply_ite (withChannel ch)]
  rfl

theorem bulkStep_ignoresChannel (k : Bulk) : IgnoresChannel (bulkStep k) := by
  intro ch s
  rw [bulkStep, bulkStep, apply_ite (withChannel ch), apply_ite (withChannel ch)]
  rfl

theorem setColorBody_ignoresChannel (idx : BitVec 16) (c : Colour) : IgnoresChannel (setColorBody idx c) := by
  intro ch s
  rw [setColorBody, setColorBody, apply_ite (withChannel ch)]
  rfl

theorem getColorBody_ignoresChannel (idx : BitVec 16) : IgnoresChannel (getColorBody idx) := by
  intro ch s
  rw [getColorBody, getColorBody, apply_ite (withChannel ch)]
  rfl

theorem countGap_ignoresChannel : IgnoresChannel countGap := by
  intro ch s
  rw [countGap_eq, countGap_eq]
  rfl

theorem countBatch_ignoresChannel : IgnoresChannel countBatch := by
  intro ch s
  rw [countBatch_eq, countBatch_eq]
  rfl

theorem streamCase_ignoresChannel : IgnoresChannel streamCase := by
  intro ch s
  by_cases hpre : s.cfg.ledCount ≤ s.prog ∨ s.cfg.ledCount < s.cfg.batch
  · rw [streamCase_of_precondition hpre, streamCase_of_precondition (s := withChannel ch s) hpre]
    rfl
  have hs : s.prog < s.cfg.ledCount := by omega
  by_cases hle : s.prog + s.cfg.batch ≤ s.cfg.ledCount
  · rw [streamCase_of_le hs hle, streamCase_of_le (s := withChannel ch s) hs hle, encodeLeds_ignoresChannel,
      countBatch_ignoresChannel]
    rfl
  · have hB : s.cfg.batch ≤ s.cfg.ledCount := by omega
    rw [streamCase_of_gt hs hB (by omega), streamCase_of_gt (s := withChannel ch s) hs hB (Nat.not_le.1 hle),
      encodeLeds_ignoresChannel]
    rfl

theorem updateBody_ignoresChannel : IgnoresChannel updateBody := by
  intro ch s
  by_cases hi : s.initDone = false
  · rw [updateBody_of_not_init hi, updateBody_of_not_init (s := withChannel ch s) hi]
    rfl
  have hi : s.initDone = true := by simpa using hi
  by_cases hu : updatingBit s.opFlags = true
  · rw [updateBody_of_busy hi hu, updateBody_of_busy (s := withChannel ch s) hi hu]
    rfl
  have hu : updatingBit s.opFlags = false := by simpa using hu
  by_cases hnone : s.cfg.ledCount = 0 ∨ s.cfg.ledCount < s.cfg.batch
  · rw [updateBody_of_less_than_one_batch hi hu hnone,
      updateBody_of_less_than_one_batch (s := withChannel ch s) hi hu hnone]
    rfl
  have hN : 0 < s.cfg.ledCount := by omega
  by_cases hB : 2 * s.cfg.batch ≤ s.cfg.ledCount
  · rw [updateBody_of_two_batches hi hu hN hB, updateBody_of_two_batches (s := withChannel ch s) hi hu hN hB,
      encodeLeds_ignoresChannel]
    rfl
  · have hone : s.cfg.batch ≤ s.cfg.ledCount := by omega
    rw [updateBody_of_less_than_two_batches hi hu hN hone (by omega),
      updateBody_of_less_than_two_batches (s := withChannel ch s) hi hu hN hone (Nat.not_le.1 hB),
      encodeLeds_ignoresChannel]
    rfl

theorem handle_ignoresChannel (e : Event) : IgnoresChannel (handle e) := by
  intro ch s
  rw [handle, handle, streamCase_ignoresChannel, gapCase, gapCase, apply_ite (withChannel ch), apply_ite (withChannel ch),
    ← countGap_ignoresChannel]
  rfl

theorem takeEvent_ignoresChannel (e : Event) : IgnoresChannel (takeEvent e) := by
  intro ch s
  by_cases he : EventEnabled e s
  · rw [takeEvent_of_enabled he, takeEvent_of_enabled (s := withChannel ch s) he, clearPending_eq_latchAfter,
      clearPending_eq_latchAfter, ← handle_ignoresChannel]
    rfl
  · rw [takeEvent_of_not_enabled he, takeEvent_of_not_enabled (s := withChannel ch s) he]

theorem IgnoresChannel.accept {f : State → State} (h : IgnoresChannel f) : IgnoresChannel (accept f) := by
  intro ch s
  by_cases hs : TaskReady s
  · rw [accept_of_ready hs, accept_of_ready (s := withChannel ch s) hs, h]
  · rw [accept_of_not_ready hs, accept_of_not_ready (s := withChannel ch s) hs]

theorem execRdTick_withChannel {ch : BitVec 16} {s t : State} (h : execRdTick s = .next t) :
    execRdTick (withChannel ch s) = .next (withChannel ch t) := by
  rcases execRdTick_cases h with ⟨he, rfl⟩ | ⟨he, hp, d, hd, rfl⟩
  · exact (tickOffOrStops (withChannel ch t)).1 he
  · rw [← boundaryEvent_ignoresChannel]
    exact exec_rdTick_of_entry (s := withChannel ch s) he hp hd

theorem IgnoresChannel.next {f : State → State} (hf : IgnoresChannel f) {s t : State} (ch : BitVec 16)
    (h : (Host.Outcome.next (f s) : Host.Outcome State Fault Refusal) = .next t) :
    (Host.Outcome.next (f (withChannel ch s)) : Host.Outcome State Fault Refusal) = .next (withChannel ch t) := by
  rw [hf, Host.Outcome.next.inj h]

/-- With another channel an operation answers the same but for the channel; only `INIT` writes the channel (R179). -/
theorem exec_withChannel {i : Instr} {s t : State} (ch : BitVec 16) (hi : ∀ c, i ≠ .init c) (h : exec i s = .next t) :
    exec i (withChannel ch s) = .next (withChannel ch t) := by
  cases i with
  | init c => exact absurd rfl (hi c)
  | setColor idx r g b => exact (setColorBody_ignoresChannel idx _).accept.next ch h
  | setAll r g b => exact (bulkStep_ignoresChannel _).accept.next ch h
  | allOff => exact (bulkStep_ignoresChannel _).accept.next ch h
  | update => exact updateBody_ignoresChannel.accept.next ch h
  | getColor idx => exact (getColorBody_ignoresChannel idx).accept.next ch h
  | onHt => exact (takeEvent_ignoresChannel .ht).next ch h
  | onTc => exact (takeEvent_ignoresChannel .tc).next ch h
  | rdTick => exact execRdTick_withChannel h

/-- `INIT` writes a channel of its own or leaves the one there is (R160). -/
theorem initBody_withChannel (c ch : BitVec 16) (s : State) :
    withChannel (initBody c s).channel (initBody c (withChannel ch s)) = initBody c s := by
  unfold initBody
  by_cases h1 : s.initDone = true
  · rw [if_pos h1, if_pos (show (withChannel ch s).initDone = true from h1)]
    rfl
  rw [if_neg h1, if_neg (show ¬ (withChannel ch s).initDone = true from h1)]
  by_cases h2 : s.cfg.bufLen % 2 ≠ 0 ∨ s.cfg.ledCount % s.cfg.batch ≠ 0
  · rw [if_pos h2, if_pos (by exact h2)]
    rfl
  · rw [if_neg h2, if_neg (by exact h2)]
    rfl

/-- Settles O44: `INIT` by the tests of its body, every other operation by ignoring the channel. -/
theorem channelHasNoOtherEffect : Obligations.ChannelHasNoOtherEffect := by
  intro i s t ch hx
  cases i with
  | init c =>
    by_cases hs : TaskReady s
    · rw [exec_init_of_ready hs, Host.Outcome.next.injEq] at hx
      exact ⟨_, exec_init_of_ready (s := withChannel ch s) hs c, hx ▸ initBody_withChannel c ch s⟩
    · rw [exec_of_not_ready rfl hs, Host.Outcome.next.injEq] at hx
      exact ⟨_, exec_of_not_ready (s := withChannel ch s) rfl hs, hx ▸ rfl⟩
  | _ => exact ⟨_, exec_withChannel ch nofun hx, rfl⟩

theorem evtPendCode_eq_ht_iff (x : Option Event) : evtPendCode x = 0b10#2 ↔ x = some .ht := by
  rcases x with _ | _ | _ <;> decide

theorem evtPendCode_eq_tc_iff (x : Option Event) : evtPendCode x = 0b11#2 ↔ x = some .tc := by
  rcases x with _ | _ | _ <;> decide

/-- The codes left unused (R33, R34, R86, R90 (c)). -/
theorem codes_never_unused (x : Option Event) (y : FaultCause) (z : Status) :
    evtPendCode x ≠ 0b01#2 ∧ faultCauseCode y ≠ 3#2 ∧ (statusCode z).toNat ≤ 5 := by
  refine ⟨?_, ?_, ?_⟩
  · rcases x with _ | _ | _ <;> decide
  · cases y <;> decide
  · cases z <;> decide

/-- Settles O45: each output is its register or its register's code. -/
theorem portsNeverShowUnusedCodes : Obligations.PortsNeverShowUnusedCodes := by
  intro s
  have irqHt : s.ports.irqHt = true ↔ s.evtPend = some .ht :=
    decide_eq_true_iff.trans (evtPendCode_eq_ht_iff _)
  have irqTc : s.ports.irqTc = true ↔ s.evtPend = some .tc :=
    decide_eq_true_iff.trans (evtPendCode_eq_tc_iff _)
  obtain ⟨latch, cause, status⟩ := codes_never_unused s.evtPend s.faultCause s.rspStatus
  refine ⟨⟨congrArg statusCode, congrArg statusCode, congrArg statusCode, congrArg statusCode, congrArg statusCode,
      congrArg statusCode⟩, ⟨congrArg faultCauseCode, congrArg faultCauseCode, congrArg faultCauseCode⟩,
    ⟨rfl, rfl, rfl⟩, ⟨irqHt, irqTc⟩, ⟨rfl, rfl, rfl, rfl, rfl, rfl, rfl, rfl, rfl⟩, latch, cause, status,
    fun ⟨h, h'⟩ => ?_⟩
  rw [irqHt] at h
  rw [irqTc, h] at h'
  cases h'

end Sys2Proof.Machine
end

section
/-! A transmission's events, in either view: what the three lifecycle values of R27 make of an enabled event, and the count of events of
R150. -/

namespace Sys2Proof

/-- What the configuration checks mean for the counters (R7, R8). -/
theorem Config.transmits_bounds {c : Config} (h : c.transmits = true) :
    0 < c.batch ∧ c.ledCount % c.batch = 0 ∧ 3 * c.batch ≤ c.ledCount ∧ 1 ≤ c.resetIrqThreshold := by
  simp only [Config.transmits, Config.wellFormed, Config.batchOk, Config.thresholdOk, Config.multipleOk,
    Config.threeBatchesOk, Bool.and_eq_true, decide_eq_true_eq] at h
  omega

namespace Machine

/-- The flags and counters of a transmission in progress (R39 (b) to (d)). -/
def Busy (s : State) : Prop :=
  (s.opFlags = flagsStream ∧ 2 * s.cfg.batch ≤ s.prog ∧ s.prog < s.cfg.ledCount ∧ s.rstCnt = 0) ∨
  (s.opFlags = flagsGap ∧ s.prog = s.cfg.ledCount ∧ s.rstCnt < s.cfg.resetIrqThreshold) ∨
  (s.opFlags = flagsStopping ∧ s.prog = s.cfg.ledCount ∧ s.rstCnt = s.cfg.resetIrqThreshold)

/-- What an enabled event does to a transmission (R142): the next batch, the next idle half, or the stop. -/
inductive BusyEvent (e : Event) (s t : State) : Prop
  | batch : s.opFlags = flagsStream → s.prog + s.cfg.batch ≤ s.cfg.ledCount → s.rstCnt = 0 →
      (∀ i < s.cfg.batch, holdsLed s.cfg t.mem (s.prog + i) (s.mem.colorAt (s.prog + i))) →
      (∀ p, (∀ i < s.cfg.batch, ¬ inLedRun s.cfg (s.prog + i) p) → t.mem.bufAt p = s.mem.bufAt p) →
      t = { s with
        mem := { color := s.mem.color, buf := t.mem.buf }
        prog := s.prog + s.cfg.batch
        opFlags := if s.cfg.ledCount ≤ s.prog + s.cfg.batch then flagsGap else flagsStream
        evtPend := latchAfter s } → BusyEvent e s t
  | gap : s.opFlags = flagsGap → s.prog = s.cfg.ledCount → s.rstCnt < s.cfg.resetIrqThreshold →
      (∀ p, t.mem.bufAt p =
        if (e = .ht ∧ p < s.cfg.halfLen) ∨ (e = .tc ∧ s.cfg.halfLen ≤ p ∧ p < s.cfg.bufLen) then some dutyIdle
        else s.mem.bufAt p) →
      t = { s with
        mem := { color := s.mem.color, buf := t.mem.buf }
        rstCnt := s.rstCnt + 1
        opFlags := if s.cfg.resetIrqThreshold ≤ s.rstCnt + 1 then flagsStopping else flagsGap
        evtPend := latchAfter s } → BusyEvent e s t
  | stop : s.opFlags = flagsStopping → s.prog = s.cfg.ledCount → s.rstCnt = s.cfg.resetIrqThreshold →
      t = { s with
        dmaRun := false
        outDuty := dutyIdle
        opFlags := flagsIdle
        prog := 0
        rstCnt := 0
        evtPend := latchAfter s } → BusyEvent e s t

/-- Two multiples of a batch differ by at least a batch. -/
theorem add_le_of_multiples {a b B : Nat} (ha : a % B = 0) (hb : b % B = 0) (h : a < b) : a + B ≤ b := by
  have hdvd : B ∣ b - a := Nat.dvd_sub (Nat.dvd_of_mod_eq_zero hb) (Nat.dvd_of_mod_eq_zero ha)
  have := Nat.le_of_dvd (by omega) hdvd
  omega

theorem Busy.opFlags_ne_idle {s : State} (h : Busy s) : s.opFlags ≠ flagsIdle := by
  rcases h with ⟨hf, -⟩ | ⟨hf, -⟩ | ⟨hf, -⟩ <;> rw [hf] <;> decide

theorem Busy.two_batches {s : State} (htr : s.cfg.transmits = true) (hb : Busy s) : 2 * s.cfg.batch ≤ s.prog := by
  obtain ⟨-, -, h3, -⟩ := s.cfg.transmits_bounds htr
  rcases hb with ⟨-, h, -, -⟩ | ⟨-, h, -⟩ | ⟨-, h, -⟩ <;> omega

section
variable {s : State} (htr : s.cfg.transmits = true) (hm : s.prog % s.cfg.batch = 0) (hb : Busy s)
include htr hm hb

/-- The flags of R27 pick the case, and the counters meet its conditions. -/
theorem exec_event_of_busy {e : Event} (he : EventEnabled e s) :
    ∃ t, exec (eventInstr e) s = .next t ∧ BusyEvent e s t := by
  obtain ⟨-, hN, -, -⟩ := s.cfg.transmits_bounds htr
  rcases hb with ⟨hf, -, hlt, hr⟩ | ⟨hf, hp, hr⟩ | ⟨hf, hp, hr⟩
  · have hle := add_le_of_multiples hm hN hlt
    obtain ⟨t, hx, holds, outside, ht⟩ :=
      (streamCaseRefillsNextBatch e s he (by rw [hf]; rfl) (by rw [hf]; rfl)).1 hlt hle
    rw [hf] at ht
    exact ⟨t, hx, .batch hf hle hr holds outside ht⟩
  · obtain ⟨t, hx, hbuf, ht⟩ := gapCaseZeroesVacatedHalf e s he (by rw [hf]; rfl) (by rw [hf]; rfl)
    rw [hf] at ht
    exact ⟨t, hx, .gap hf hp hr hbuf ht⟩
  · exact ⟨_, stopCaseEndsTransmission e s he (by rw [hf]; rfl), .stop hf hp hr rfl⟩

/-- The events handled and the two batches of `UPDATE` are the batches and idle halves written so far. -/
theorem Busy.handled_mul : (eventsHandled s + 2) * s.cfg.batch = s.prog + s.rstCnt * s.cfg.batch := by
  obtain ⟨hB, -, -, -⟩ := s.cfg.transmits_bounds htr
  have two : 2 ≤ s.prog / s.cfg.batch := (Nat.le_div_iff_mul_le hB).2 (hb.two_batches htr)
  have count : eventsHandled s + 2 = s.prog / s.cfg.batch + s.rstCnt := by
    unfold eventsHandled
    omega
  rw [count, Nat.add_mul, Nat.div_mul_cancel (Nat.dvd_of_mod_eq_zero hm)]

/-- An event that does not stop the transmission leaves it busy, with one event more handled (R149, R150). -/
theorem BusyEvent.next {e : Event} {t : State} (h : BusyEvent e s t) (hs : s.opFlags ≠ flagsStopping) :
    Busy t ∧ t.prog % s.cfg.batch = 0 ∧ eventsHandled t = eventsHandled s + 1 := by
  obtain ⟨hB, -, -, -⟩ := s.cfg.transmits_bounds htr
  cases h with
  | batch _ hle hr _ _ ht =>
    have two := hb.two_batches htr
    have div : 2 ≤ s.prog / s.cfg.batch := (Nat.le_div_iff_mul_le hB).2 two
    rw [ht]
    refine ⟨?_, (Nat.add_mod_right _ _).trans hm, ?_⟩
    · by_cases hge : s.cfg.ledCount ≤ s.prog + s.cfg.batch
      · refine .inr (.inl ⟨if_pos hge, by show s.prog + _ = s.cfg.ledCount; omega, ?_⟩)
        obtain ⟨-, -, -, hT⟩ := s.cfg.transmits_bounds htr
        show s.rstCnt < s.cfg.resetIrqThreshold
        omega
      · exact .inl ⟨if_neg hge, Nat.le_add_right_of_le two, Nat.not_le.1 hge, hr⟩
    · show (s.prog + s.cfg.batch) / s.cfg.batch - 2 + s.rstCnt = s.prog / s.cfg.batch - 2 + s.rstCnt + 1
      rw [Nat.add_div_right _ hB]
      omega
  | gap _ hp hr _ ht =>
    rw [ht]
    refine ⟨?_, hm, rfl⟩
    by_cases hge : s.cfg.resetIrqThreshold ≤ s.rstCnt + 1
    · exact .inr (.inr ⟨if_pos hge, hp, by show s.rstCnt + 1 = s.cfg.resetIrqThreshold; omega⟩)
    · exact .inr (.inl ⟨if_neg hge, hp, Nat.not_le.1 hge⟩)
  | stop hf => exact absurd hf hs

end

/-- What an event does to a busy state's flags (R27, R149). -/
theorem BusyEvent.opFlags_cases {e : Event} {s t : State} (h : BusyEvent e s t) :
    t.opFlags = s.opFlags ∨ (s.opFlags = flagsStream ∧ t.opFlags = flagsGap) ∨
    (s.opFlags = flagsGap ∧ t.opFlags = flagsStopping) ∨ (s.opFlags = flagsStopping ∧ t.opFlags = flagsIdle) := by
  cases h with
  | batch hf _ _ _ _ ht =>
    rw [ht]
    dsimp only
    split
    · exact .inr (.inl ⟨hf, rfl⟩)
    · exact .inl hf.symm
  | gap hf _ _ _ ht =>
    rw [ht]
    dsimp only
    split
    · exact .inr (.inr (.inl ⟨hf, rfl⟩))
    · exact .inl hf.symm
  | stop hf _ _ ht => exact .inr (.inr (.inr ⟨hf, by rw [ht]⟩))

/-- What an event of a transmission leaves alone (R140, R147, R148). -/
theorem BusyEvent.frame {e : Event} {s t : State} (h : BusyEvent e s t) :
    t = { s with
      mem := { color := s.mem.color, buf := t.mem.buf }
      prog := t.prog
      opFlags := t.opFlags
      rstCnt := t.rstCnt
      dmaRun := t.dmaRun
      outDuty := t.outDuty
      evtPend := latchAfter s } := by
  cases h with
  | batch _ _ _ _ _ ht => rw [ht]
  | gap _ _ _ _ ht => rw [ht]
  | stop _ _ _ ht => rw [ht]

/-- Only the stop writes `dma_run` and `out_duty` (R145, R172). -/
theorem BusyEvent.stream_eq {e : Event} {s t : State} (h : BusyEvent e s t) (hs : s.opFlags ≠ flagsStopping) :
    t.dmaRun = s.dmaRun ∧ t.outDuty = s.outDuty := by
  cases h with
  | batch _ _ _ _ _ ht => rw [ht]; exact ⟨rfl, rfl⟩
  | gap _ _ _ _ ht => rw [ht]; exact ⟨rfl, rfl⟩
  | stop hf => exact absurd hf hs

/-- A transmission that `UPDATE` has just started has handled no event (R162). -/
theorem eventsHandled_of_start {s : State} (hB : 0 < s.cfg.batch) (hp : s.prog = 2 * s.cfg.batch)
    (hr : s.rstCnt = 0) : eventsHandled s = 0 := by
  rw [eventsHandled, hp, hr, Nat.mul_div_cancel _ hB]

/-- In STOPPING an event is the stop (R142). -/
theorem BusyEvent.eq_of_stopping {e : Event} {s t : State} (h : BusyEvent e s t) (hs : s.opFlags = flagsStopping) :
    t = { s with
      dmaRun := false
      outDuty := dutyIdle
      opFlags := flagsIdle
      prog := 0
      rstCnt := 0
      evtPend := latchAfter s } := by
  cases h with
  | batch hf => exact absurd (hs.symm.trans hf) (by decide)
  | gap hf => exact absurd (hs.symm.trans hf) (by decide)
  | stop _ _ _ ht => exact ht

/-! ### The open view -/

/-- A transmission in the open view (R11), with `k` events still to come before the one that stops it (R150). -/
structure OpenBusy (k : Nat) (s : State) : Prop where
  view : s.cfg.view = .openView
  transmits : s.cfg.transmits = true
  fault : s.fault = false
  multiple : s.prog % s.cfg.batch = 0
  busy : Busy s
  left : eventsHandled s + k = s.cfg.ledCount / s.cfg.batch - 2 + s.cfg.resetIrqThreshold

/-- The stop is next exactly when no event is still to come before it. -/
theorem OpenBusy.stopping_iff {k : Nat} {s : State} (h : OpenBusy k s) : s.opFlags = flagsStopping ↔ k = 0 := by
  obtain ⟨hB, hN, -, hT⟩ := s.cfg.transmits_bounds h.transmits
  have left := h.left
  unfold eventsHandled at left
  rcases h.busy with ⟨hf, -, hlt, hr⟩ | ⟨hf, hp, hr⟩ | ⟨hf, hp, hr⟩
  · have hle := Nat.div_le_div_right (c := s.cfg.batch) hlt.le
    exact iff_of_false (by rw [hf]; decide) (by omega)
  · rw [hp] at left
    exact iff_of_false (by rw [hf]; decide) (by omega)
  · rw [hp] at left
    exact iff_of_true hf (by omega)

/-- The next event of a transmission in the open view, fed as a word (R84). -/
theorem OpenBusy.step {k : Nat} {s : State} {e : Event} {rest : List Input} (h : OpenBusy k s)
    (hin : s.inputs = .port (.evt (eventBit e)) :: rest) :
    ∃ t, step s = .next t ∧ t.inputs = rest ∧ BusyEvent e { s with inputs := rest } t := by
  obtain ⟨t, hx, hev⟩ := exec_event_of_busy (s := { s with inputs := rest }) h.transmits h.multiple h.busy
    ⟨h.fault, .inl h.view⟩
  exact ⟨t, (step_of_port hin rfl (decode_eventBit e)).trans hx, by rw [hev.frame], hev⟩

theorem OpenBusy.next {k : Nat} {s t : State} {e : Event} (h : OpenBusy (k + 1) s) (hev : BusyEvent e s t) :
    OpenBusy k t := by
  have notStop : s.opFlags ≠ flagsStopping := fun hs => by simpa using h.stopping_iff.1 hs
  obtain ⟨hb, hm, count⟩ := hev.next h.transmits h.multiple h.busy notStop
  have hcfg : t.cfg = s.cfg := by rw [hev.frame]
  have hfault : t.fault = s.fault := by rw [hev.frame]
  have left := h.left
  exact
    { view := hcfg ▸ h.view
      transmits := hcfg ▸ h.transmits
      fault := hfault.trans h.fault
      multiple := hcfg ▸ hm
      busy := hb
      left := by rw [hcfg]; omega }

/-- By induction on the events: each but the last leaves one event less to come, and the last stops the transmission. -/
theorem OpenBusy.run {k : Nat} {s : State} {es : List Event} (h : OpenBusy k s) (hlen : es.length = k + 1)
    (hin : s.inputs = es.map fun e => .port (.evt (eventBit e))) :
    (∃ t : State, core.run es.length s = .next t ∧
      t.opFlags = flagsIdle ∧ t.prog = 0 ∧ t.rstCnt = 0 ∧ t.dmaRun = false ∧ t.fault = false) ∧
    ∀ j < es.length, ∃ u : State, core.run j s = .next u ∧ u.opFlags ≠ flagsIdle ∧ u.fault = false := by
  induction es generalizing k s with
  | nil => cases hlen
  | cons e es ih =>
    obtain ⟨t, hstep, hrest, hev⟩ := h.step hin
    have here : ∃ u : State, core.run 0 s = .next u ∧ u.opFlags ≠ flagsIdle ∧ u.fault = false :=
      ⟨s, rfl, h.busy.opFlags_ne_idle, h.fault⟩
    cases k with
    | zero =>
      have last : (e :: es).length = 1 := hlen
      have hfault : t.fault = false := by rw [hev.frame]; exact h.fault
      rw [last]
      refine ⟨⟨t, run_succ_of_next hstep 0, ?_⟩, fun j hj => ?_⟩
      · have ht := hev.eq_of_stopping (h.stopping_iff.2 rfl)
        exact ⟨by rw [ht], by rw [ht], by rw [ht], by rw [ht], hfault⟩
      · rw [Nat.lt_one_iff.1 hj]
        exact here
    | succ k =>
      have ht : OpenBusy k t := OpenBusy.next (s := { s with inputs := es.map _ }) { h with } hev
      obtain ⟨done, before⟩ := ih ht (Nat.succ.inj hlen) hrest
      refine ⟨by rw [List.length_cons, run_succ_of_next hstep]; exact done, fun j hj => ?_⟩
      cases j with
      | zero => exact here
      | succ j =>
        rw [run_succ_of_next hstep]
        exact before j (Nat.lt_of_succ_lt_succ hj)

/-- Settles O29: a transmission just started has handled no event, so all but one of the events come before the stop. -/
theorem transmissionTakesExactlyTheCountedEvents : Obligations.TransmissionTakesExactlyTheCountedEvents := by
  intro s es hv htr hfault hf hp hr hin hlen
  obtain ⟨hB, hN, h3, hT⟩ := s.cfg.transmits_bounds htr
  have three : 3 ≤ s.cfg.ledCount / s.cfg.batch := (Nat.le_div_iff_mul_le hB).2 h3
  have none := eventsHandled_of_start hB hp hr
  have start : OpenBusy (s.cfg.ledCount / s.cfg.batch - 2 + s.cfg.resetIrqThreshold) s :=
    { view := hv
      transmits := htr
      fault := hfault
      multiple := by rw [hp, Nat.mul_mod_left]
      busy := .inl ⟨hf, hp.ge, by omega, hr⟩
      left := by rw [none, Nat.zero_add] }
  exact start.run (by omega) hin

end Machine

end Sys2Proof
end

section
/-! The closed view (`10_state.md` R39): what a step does to a state that meets the invariant, and that it keeps the invariant. -/

namespace Sys2Proof.Machine

/-! ### Consequences of the invariant -/

theorem ClosedInv.withInputs {s : State} (h : ClosedInv s) (l : List Input) : ClosedInv { s with inputs := l } :=
  { h with }

theorem Lifecycle.cases {s : State} (h : Lifecycle s) :
    (s.opFlags = flagsIdle ∧ s.prog = 0 ∧ s.rstCnt = 0 ∧ s.dmaRun = false ∧ s.evtPend = none) ∨
    (Busy s ∧ s.dmaRun = true) := by
  rcases h with h | ⟨hf, hl, hu, hr, hd⟩ | ⟨hf, hp, hr, hd⟩ | ⟨hf, hp, hr, hd⟩
  · exact .inl h
  · exact .inr ⟨.inl ⟨hf, hl, hu, hr⟩, hd⟩
  · exact .inr ⟨.inr (.inl ⟨hf, hp, hr⟩), hd⟩
  · exact .inr ⟨.inr (.inr ⟨hf, hp, hr⟩), hd⟩

theorem Busy.lifecycle {s : State} (h : Busy s) (hd : s.dmaRun = true) : Lifecycle s := by
  rcases h with ⟨hf, hl, hu, hr⟩ | ⟨hf, hp, hr⟩ | ⟨hf, hp, hr⟩
  · exact .inr (.inl ⟨hf, hl, hu, hr, hd⟩)
  · exact .inr (.inr (.inl ⟨hf, hp, hr, hd⟩))
  · exact .inr (.inr (.inr ⟨hf, hp, hr, hd⟩))

section
variable {s : State} (h : ClosedInv s)
include h

/-- While the stream runs, a transmission is in progress (R32). -/
theorem ClosedInv.busy_of_running (hd : s.dmaRun = true) : Busy s := by
  rcases h.lifecycle.cases with ⟨-, -, -, hd', -⟩ | ⟨hb, -⟩
  · rw [hd] at hd'
    cases hd'
  · exact hb

/-- An event is pending only in a transmission (R39 (a)). -/
theorem ClosedInv.busy_of_pending {e : Event} (he : s.evtPend = some e) : Busy s ∧ s.dmaRun = true := by
  rcases h.lifecycle.cases with ⟨-, -, -, -, hn⟩ | hb
  · rw [he] at hn
    cases hn
  · exact hb

/-- UPDATING is clear in IDLE only (R27). -/
theorem ClosedInv.idle_of_not_updating (hu : updatingBit s.opFlags = false) :
    s.opFlags = flagsIdle ∧ s.prog = 0 ∧ s.rstCnt = 0 ∧ s.evtPend = none := by
  rcases h.lifecycle with ⟨hf, hp, hr, -, hn⟩ | ⟨hf, -⟩ | ⟨hf, -⟩ | ⟨hf, -⟩
  · exact ⟨hf, hp, hr, hn⟩
  all_goals
    rw [hf] at hu
    exact absurd hu (by decide)

theorem ClosedInv.latchAfter_eq : latchAfter s = none := by
  rw [latchAfter, h.closed]

theorem ClosedInv.exec_event {e : Event} (hf : s.fault = false) (he : s.evtPend = some e) :
    ∃ t, exec (eventInstr e) s = .next t ∧ BusyEvent e s t :=
  exec_event_of_busy h.transmits h.progMultiple (h.busy_of_pending he).1 ⟨hf, .inr he⟩

end

/-! ### What a step does -/

/-- A transmission started by `UPDATE` (R162): both halves filled, the stream at entry 0, UPDATING set. -/
structure Started (s t : State) : Prop where
  entries : ∀ led < 2 * s.cfg.batch, ∀ j < 24,
    t.mem.bufAt (24 * led + j) = (encodePulses s.cfg (s.mem.colorAt led))[j]?
  above : ∀ p, s.cfg.bufLen ≤ p → t.mem.bufAt p = s.mem.bufAt p
  frame : t = { s with
    mem := { color := s.mem.color, buf := t.mem.buf }
    prog := 2 * s.cfg.batch
    dmaRun := true
    rdPtr := 0
    trace := []
    opFlags := withUpdating s.opFlags
    rspStatus := .ok }

/-- What an operation does to a state that meets the invariant: it stays within the task context, starts the stream, handles the pending
event, or is a read tick. -/
inductive ClosedExec (s t : State) : Prop
  | task : TaskOnly s t → (t.initDone = false → s.initDone = false) →
      (∀ k, t.bulk = some k → k.next < s.cfg.ledCount) → ClosedExec s t
  | start : s.initDone = true → updatingBit s.opFlags = false → Started s t → ClosedExec s t
  | event : ∀ e, s.fault = false → s.evtPend = some e → BusyEvent e s t → ClosedExec s t
  | tick : TickCase s t → ClosedExec s t

theorem BulkCase.closedExec {k : Bulk} {s t : State} (hk : k.next < s.cfg.ledCount) (hb : BulkCase k s t) :
    ClosedExec s t := by
  cases hb with
  | more hm ht =>
    refine .task (BulkCase.more hm ht).taskOnly (fun hi => by rwa [ht] at hi) fun j hj => ?_
    rw [ht] at hj
    cases hj
    exact hm
  | last hl ht => exact .task (BulkCase.last hl ht).taskOnly (fun hi => by rwa [ht] at hi) (by rw [ht]; nofun)
  | past hp _ => exact absurd hk (Nat.not_lt.2 hp)

section
variable {s t : State} (h : ClosedInv s)
include h

theorem ClosedInv.refl_exec : ClosedExec s s := .task rfl id h.bulkInRange

/-- An accepted `UPDATE` in IDLE: with a configuration that transmits the two refills do not fault (R133, R162). -/
theorem ClosedInv.update_exec (hs : TaskReady s) (hu : updatingBit s.opFlags = false) (hx : exec .update s = .next t) :
    ClosedExec s t := by
  obtain ⟨hB, -, h3, -⟩ := s.cfg.transmits_bounds h.transmits
  cases hi : s.initDone with
  | false =>
    rw [updateBeforeInitRefused s hs hi, Host.Outcome.next.injEq] at hx
    exact hx ▸ .task rfl id h.bulkInRange
  | true =>
    obtain ⟨u, hu', entries, above, ht⟩ := updateStartsTransmission s hs hi hu (by omega) (by omega)
    rw [hx, Host.Outcome.next.injEq] at hu'
    subst hu'
    exact .start hi hu ⟨entries, above, ht⟩

theorem ClosedInv.command_exec {i : Instr} (hc : CommandCase i s t) (hx : exec i s = .next t) : ClosedExec s t := by
  have hN : 0 < s.cfg.ledCount := by
    obtain ⟨hB, -, h3, -⟩ := s.cfg.transmits_bounds h.transmits
    omega
  cases hc with
  | notAccepted _ ht => exact ht ▸ h.refl_exec
  | answered _ _ ht => exact ht ▸ .task rfl id h.bulkInRange
  | inited _ _ _ _ _ ht => exact ht ▸ .task rfl nofun h.bulkInRange
  | colourSet _ _ _ _ _ ht => exact ht ▸ .task rfl id h.bulkInRange
  | bulkStarted _ _ _ hb => exact hb.closedExec hN
  | colourRead _ _ _ _ ht => exact ht ▸ .task rfl id h.bulkInRange
  | streamStarted _ hi hs _ hu _ => exact h.update_exec hs hu (hi ▸ hx)
  | updateFaulted _ hi hs hu _ => exact h.update_exec hs hu (hi ▸ hx)

theorem ClosedInv.exec_cases {i : Instr} (hx : exec i s = .next t) : ClosedExec s t := by
  cases Machine.exec_cases hx with
  | command _ hc => exact h.command_exec hc hx
  | tick _ ht => exact .tick ht
  | event e hi _ =>
    rw [hi] at hx
    by_cases he : EventEnabled e s
    · obtain ⟨hf, hv | hp⟩ := he
      · rw [h.closed] at hv
        cases hv
      · obtain ⟨u, hu, hev⟩ := h.exec_event hf hp
        rw [hx, Host.Outcome.next.injEq] at hu
        exact .event e hf hp (hu ▸ hev)
    · rw [exec_event_of_not_enabled he, Host.Outcome.next.injEq] at hx
      exact hx ▸ h.refl_exec

/-- A step is hardware reset or does what an operation does, with the inputs used up. -/
theorem ClosedInv.step_cases (hx : step s = .next t) :
    (∃ rest, s.inputs = .reset :: rest ∧ t = hardReset rest s) ∨ ∃ l, ClosedExec { s with inputs := l } t := by
  cases step_stepCase hx with
  | quiet l ht => exact .inr ⟨l, ht ▸ (h.withInputs l).refl_exec⟩
  | reset rest hin ht => exact .inl ⟨rest, hin, ht⟩
  | bulk l k _ hk hb => exact .inr ⟨l, hb.closedExec (h.bulkInRange k hk)⟩
  | illegal l _ ht => exact .inr ⟨l, ht ▸ .task rfl id h.bulkInRange⟩
  | ran l i hx => exact .inr ⟨l, (h.withInputs l).exec_cases hx⟩

end

/-! ### Entries of the buffer -/

/-- A value that may stand in the buffer (R23). -/
def IsValue (c : Config) (d : Duty) : Prop := d = c.dutyLow ∨ d = c.dutyHigh ∨ d = dutyIdle

/-- From `m` to `m'` each entry of the buffer keeps its content or gets a value. -/
def WritesValues (c : Config) (m m' : Memory) : Prop :=
  ∀ p, m'.bufAt p = m.bufAt p ∨ ∃ d, m'.bufAt p = some d ∧ IsValue c d

section
variable {c : Config} {m m' : Memory}

theorem isValue_of_mem_encodePulses {x : Colour} {d : Duty} (h : d ∈ encodePulses c x) : IsValue c d := by
  rcases mem_encodePulses h with h | h
  · exact .inr (.inl h)
  · exact .inl h

theorem exists_value_of_pulse {x : Colour} {p j : Nat} (hj : j < 24) (h : m.bufAt p = (encodePulses c x)[j]?) :
    ∃ d, m.bufAt p = some d ∧ IsValue c d :=
  ⟨_, h.trans (getElem?_encodePulses c x hj),
    isValue_of_mem_encodePulses (List.mem_iff_getElem?.2 ⟨j, getElem?_encodePulses c x hj⟩)⟩

/-- Writing LEDs writes values. -/
theorem writesValues_of_leds {start n : Nat} {x : Nat → Colour} (holds : ∀ i < n, holdsLed c m' (start + i) (x i))
    (outside : ∀ p, (∀ i < n, ¬ inLedRun c (start + i) p) → m'.bufAt p = m.bufAt p) : WritesValues c m m' := by
  intro p
  by_cases hp : ∃ i, i < n ∧ inLedRun c (start + i) p
  · obtain ⟨i, hi, hl, hu⟩ := hp
    rw [bitsPerLed_eq] at hu
    have hj : p - wrPos c (start + i) < 24 := by omega
    have entry := holds i hi _ hj
    rw [Nat.add_sub_cancel' hl] at entry
    exact .inr (exists_value_of_pulse hj entry)
  · exact .inl (outside p fun i hi hr => hp ⟨i, hi, hr⟩)

theorem WritesValues.written (h : WritesValues c m m') {L : Nat} (hm : ∀ p < L, m.bufAt p ≠ none) :
    ∀ p < L, m'.bufAt p ≠ none := by
  intro p hp
  rcases h p with h | ⟨d, h, -⟩ <;> rw [h]
  · exact hm p hp
  · exact Option.some_ne_none d

/-- With rising indexes the listed entries are the ones that can be read. -/
theorem WritesValues.symbols (h : WritesValues c m m') (hm : m.wf c) (hm' : m'.wf c)
    (hs : ∀ e ∈ m.buf, IsValue c e.2) : ∀ e ∈ m'.buf, IsValue c e.2 := by
  obtain ⟨-, -, rising, -⟩ := hm
  obtain ⟨-, -, rising', -⟩ := hm'
  intro e he
  have read : m'.bufAt e.1 = some e.2 := (tableRead_eq_some_iff rising' e.1 e.2).2 he
  rcases h e.1 with h | ⟨d, h, hd⟩ <;> rw [read] at h
  · exact hs e ((tableRead_eq_some_iff rising e.1 e.2).1 h.symm)
  · rwa [Option.some.inj h]

end

theorem BusyEvent.writesValues {e : Event} {s t : State} (h : BusyEvent e s t) : WritesValues s.cfg s.mem t.mem := by
  cases h with
  | batch _ _ _ holds outside _ => exact writesValues_of_leds holds outside
  | gap _ _ _ hbuf _ =>
    intro p
    rw [hbuf p]
    split
    · exact .inr ⟨_, rfl, .inr (.inr rfl)⟩
    · exact .inl rfl
  | stop _ _ _ ht =>
    rw [ht]
    exact fun _ => .inl rfl

/-! ### The invariant after each kind of step -/

theorem eventsRaised_of_none {s : State} (h : s.evtPend = none) : eventsRaised s = eventsHandled s := by
  rw [eventsRaised, if_pos h, Nat.add_zero]

theorem eventsRaised_of_some {s : State} {e : Event} (h : s.evtPend = some e) : eventsRaised s = eventsHandled s + 1 := by
  rw [eventsRaised, if_neg (by rw [h]; exact Option.some_ne_none e)]

/-- The state after reset of a machine that transmits meets the invariant. -/
theorem closedInv_resetFor {c : Config} (hv : c.view = .closedView) (ht : c.transmits = true) :
    ClosedInv (State.resetFor c) := by
  obtain ⟨hB, -, -, -⟩ := c.transmits_bounds ht
  exact
    { closed := hv
      transmits := ht
      memory := Memory.wf_reset c
      lifecycle := .inl ⟨rfl, rfl, rfl, rfl, rfl⟩
      progMultiple := Nat.zero_mod _
      initFirst := fun _ => rfl
      cursor := by
        show 0 < c.bufLen
        rw [Config.bufLen_eq]
        omega
      written := nofun
      symbols := nofun
      idleOutput := fun _ => rfl
      cause := rfl
      faultPending := nofun
      phase := nofun
      bulkInRange := nofun }

section
variable {s t : State} (h : ClosedInv s)
include h

theorem ClosedInv.of_task (ht : TaskOnly s t) (hi : t.initDone = false → s.initDone = false)
    (hb : ∀ k, t.bulk = some k → k.next < s.cfg.ledCount) (hm : t.mem.wf t.cfg) : ClosedInv t := by
  rw [ht] at hm ⊢
  exact { h with memory := hm, initFirst := fun hn => h.initFirst (hi hn), bulkInRange := hb }

/-- A transmission that has just started is in STREAM, at entry 0 of a buffer filled whole, with no event raised (R162, R171). -/
theorem ClosedInv.of_start (hinit : s.initDone = true) (hu : updatingBit s.opFlags = false)
    (hst : Started s t) (hm : t.mem.wf t.cfg) : ClosedInv t := by
  obtain ⟨entries, above, ht⟩ := hst
  obtain ⟨hB, -, h3, -⟩ := s.cfg.transmits_bounds h.transmits
  obtain ⟨hf, -, hr, hn⟩ := h.idle_of_not_updating hu
  have pending : t.evtPend = none := by rw [ht]; exact hn
  have raised : eventsRaised t = 0 :=
    (eventsRaised_of_none pending).trans
      (eventsHandled_of_start (by rw [ht]; exact hB) (by rw [ht]) (by rw [ht]; exact hr))
  generalize t.mem.buf = b at ht
  subst ht
  have half : 0 < s.cfg.halfLen := by
    rw [Config.halfLen_eq]
    omega
  have values : ∀ p < s.cfg.bufLen,
      ∃ d, Memory.bufAt { color := s.mem.color, buf := b } p = some d ∧ IsValue s.cfg d := by
    intro p hp
    rw [Config.bufLen_eq] at hp
    have entry := entries (p / 24) (by omega) (p % 24) (Nat.mod_lt p (by decide))
    rw [Nat.div_add_mod] at entry
    exact exists_value_of_pulse (Nat.mod_lt p (by decide)) entry
  have writes : WritesValues s.cfg s.mem { color := s.mem.color, buf := b } := fun p => by
    by_cases hp : p < s.cfg.bufLen
    · exact .inr (values p hp)
    · exact .inl (above p (Nat.not_lt.1 hp))
  exact
    { closed := h.closed
      transmits := h.transmits
      memory := hm
      lifecycle := .inr (.inl ⟨by rw [hf]; rfl, le_rfl, by show 2 * s.cfg.batch < s.cfg.ledCount; omega, hr, rfl⟩)
      progMultiple := Nat.mul_mod_left _ _
      initFirst := fun hi => absurd (hinit.symm.trans hi) nofun
      cursor := by
        show 0 < s.cfg.bufLen
        rw [Config.bufLen_eq_two_halves]
        omega
      written := fun _ p hp => by
        obtain ⟨d, hd, -⟩ := values p hp
        rw [hd]
        exact Option.some_ne_none d
      symbols := writes.symbols h.memory hm h.symbols
      idleOutput := nofun
      cause := h.cause
      faultPending := h.faultPending
      phase := fun _ _ => by
        refine ⟨iff_of_true half ?_, fun he => absurd (pending.symm.trans he) nofun,
          fun he => absurd (pending.symm.trans he) nofun⟩
        rw [raised]
      bulkInRange := h.bulkInRange }

/-- After the stop the state is in IDLE (R145). -/
theorem ClosedInv.of_stop {e : Event} (hf : s.fault = false) (hev : BusyEvent e s t)
    (hs : s.opFlags = flagsStopping) : ClosedInv t := by
  rw [hev.eq_of_stopping hs]
  exact
    { h with
      lifecycle := .inl ⟨rfl, rfl, rfl, rfl, h.latchAfter_eq⟩
      progMultiple := Nat.zero_mod _
      initFirst := fun _ => rfl
      written := nofun
      idleOutput := fun _ => rfl
      faultPending := fun hf' => absurd (hf.symm.trans hf') nofun
      phase := nofun }

/-- Handling the pending event keeps the phase: what was pending has now been handled (R155). -/
theorem ClosedInv.of_event {e : Event} (hf : s.fault = false) (he : s.evtPend = some e) (hev : BusyEvent e s t)
    (hm : t.mem.wf t.cfg) : ClosedInv t := by
  obtain ⟨busy, running⟩ := h.busy_of_pending he
  by_cases hs : s.opFlags = flagsStopping
  · exact h.of_stop hf hev hs
  obtain ⟨busy', multiple, count⟩ := hev.next h.transmits h.progMultiple busy hs
  obtain ⟨run, -⟩ := hev.stream_eq hs
  have running' : t.dmaRun = true := run.trans running
  have writes := hev.writesValues
  have ht := hev.frame
  rw [h.latchAfter_eq] at ht
  have hcfg : t.cfg = s.cfg := by rw [ht]
  have hpend : t.evtPend = none := by rw [ht]
  have hrd : t.rdPtr = s.rdPtr := by rw [ht]
  have hfault : t.fault = false := by rw [ht]; exact hf
  obtain ⟨side, -, -⟩ := h.phase hf running
  rw [eventsRaised_of_some he, ← count, ← eventsRaised_of_none hpend, ← hrd, ← hcfg] at side
  exact
    { closed := hcfg ▸ h.closed
      transmits := hcfg ▸ h.transmits
      memory := hm
      lifecycle := busy'.lifecycle running'
      progMultiple := hcfg ▸ multiple
      initFirst := fun hi => by
        rw [ht] at hi
        exact absurd (h.initFirst hi) busy.opFlags_ne_idle
      cursor := by rw [hrd, hcfg]; exact h.cursor
      written := fun _ => by rw [hcfg]; exact writes.written (h.written running)
      symbols := by
        rw [hcfg] at hm ⊢
        exact writes.symbols h.memory hm h.symbols
      idleOutput := fun hd => absurd (running'.symm.trans hd) nofun
      cause := by rw [ht]; exact h.cause
      faultPending := fun hf' => absurd (hfault.symm.trans hf') nofun
      phase := fun _ _ => ⟨side, fun he' => absurd (hpend.symm.trans he') nofun,
        fun he' => absurd (hpend.symm.trans he') nofun⟩
      bulkInRange := fun k hk => by
        rw [ht] at hk
        rw [hcfg]
        exact h.bulkInRange k hk }

/-- Away from a boundary the cursor stays in its half, and in a fault the phase no longer matters (R174, R177). -/
theorem ClosedInv.of_quiet_tick {d : Duty} (hd : s.dmaRun = true)
    (hq : s.fault = true ∨ ((streamOut d s).rdPtr ≠ s.cfg.halfLen ∧ (streamOut d s).rdPtr ≠ 0)) :
    ClosedInv (streamOut d s) := by
  refine
    { h with
      cursor := Nat.mod_lt _ (Nat.zero_lt_of_lt h.cursor)
      idleOutput := fun hd' => absurd (hd.symm.trans hd') nofun
      phase := fun hf _ => ?_ }
  obtain ⟨side, ht, tc⟩ := h.phase hf hd
  refine ⟨Iff.trans ?_ side, ht, tc⟩
  have inside := hq.resolve_left fun hf' => absurd (hf'.symm.trans hf) nofun
  rw [streamOut_rdPtr, cursor_advance h.cursor] at inside ⊢
  rw [streamOut_cfg]
  split at inside
  case isTrue => exact absurd rfl inside.2
  case isFalse hne =>
    rw [if_neg hne]
    omega

/-- At a boundary the event raised is the one that the half just left calls for (R155, R177). -/
theorem ClosedInv.of_raised {d : Duty} {e : Event} (hd : s.dmaRun = true) (hf : s.fault = false)
    (hn : s.evtPend = none)
    (hq : (e = .ht ∧ (streamOut d s).rdPtr = s.cfg.halfLen) ∨ (e = .tc ∧ (streamOut d s).rdPtr = 0)) :
    ClosedInv { streamOut d s with evtPend := some e } := by
  have L := s.cfg.bufLen_eq_two_halves
  have cursor := h.cursor
  refine
    { h with
      lifecycle := Busy.lifecycle (s := { streamOut d s with evtPend := some e }) (h.busy_of_running hd) hd
      cursor := Nat.mod_lt _ (Nat.zero_lt_of_lt h.cursor)
      idleOutput := fun hd' => absurd (hd.symm.trans hd') nofun
      faultPending := fun _ => nofun
      phase := fun _ _ => ?_ }
  obtain ⟨side, -, -⟩ := h.phase hf hd
  have raised : eventsRaised { streamOut d s with evtPend := some e } = eventsHandled s + 1 := eventsRaised_of_some rfl
  rw [eventsRaised_of_none hn] at side
  rw [streamOut_rdPtr, cursor_advance h.cursor] at hq
  rcases hq with ⟨rfl, hq⟩ | ⟨rfl, hq⟩
  · have even : eventsHandled s % 2 = 0 := side.1 (by split at hq <;> omega)
    refine ⟨?_, fun _ => even, nofun⟩
    rw [raised]
    show (s.rdPtr + 1) % s.cfg.bufLen < s.cfg.halfLen ↔ _
    rw [cursor_advance h.cursor, hq]
    omega
  · have last : s.rdPtr + 1 = s.cfg.bufLen := by
      split at hq <;> omega
    have odd : eventsHandled s % 2 = 1 := by omega
    refine ⟨?_, nofun, fun _ => odd⟩
    rw [raised]
    show (s.rdPtr + 1) % s.cfg.bufLen < s.cfg.halfLen ↔ _
    rw [cursor_advance h.cursor, if_pos last]
    omega

theorem ClosedInv.of_overrun {d : Duty} (hd : s.dmaRun = true) (hn : s.evtPend ≠ none) :
    ClosedInv (latchFault .overrun (streamOut d s)) :=
  { h with
    cursor := Nat.mod_lt _ (Nat.zero_lt_of_lt h.cursor)
    idleOutput := fun hd' => absurd (hd.symm.trans hd') nofun
    cause := rfl
    faultPending := fun _ => hn
    phase := nofun }

theorem ClosedInv.of_tick (ht : TickCase s t) : ClosedInv t := by
  cases ht with
  | notEnabled _ ht => exact ht ▸ h
  | quiet d he _ _ hq ht => exact ht ▸ h.of_quiet_tick he.2 hq
  | raised d e he _ _ hf hn hq ht => exact ht ▸ h.of_raised he.2 hf hn hq
  | overrun d he _ _ _ hn ht => exact ht ▸ h.of_overrun he.2 hn

theorem ClosedInv.of_exec (hx : ClosedExec s t) (hm : t.mem.wf t.cfg) : ClosedInv t := by
  cases hx with
  | task ht hi hb => exact h.of_task ht hi hb hm
  | start hi hu hst => exact h.of_start hi hu hst hm
  | event e hf he hev => exact h.of_event hf he hev hm
  | tick ht => exact h.of_tick ht

end

/-- Settles O46: after reset nothing streams and nothing is in the buffer. -/
theorem resetMeetsClosedInv : Obligations.ResetMeetsClosedInv := fun _ hv ht => closedInv_resetFor hv ht

/-- Settles O47: a reset leaves the reset state, and each kind of operation keeps the invariant. -/
theorem stepKeepsClosedInv : Obligations.StepKeepsClosedInv := by
  intro s t h hx
  rcases h.step_cases hx with ⟨rest, -, rfl⟩ | ⟨l, hc⟩
  · exact (closedInv_resetFor h.closed h.transmits).withInputs rest
  · exact (h.withInputs l).of_exec hc (stepKeepsMemoryCanonical s t h.memory hx)

/-- Settles O49: only the start of the stream and the events of a transmission write the flags. -/
theorem flagsFollowLifecycle : Obligations.FlagsFollowLifecycle := by
  intro s t h hx hr
  rcases h.step_cases hx with ⟨rest, hin, -⟩ | ⟨l, hc⟩
  · exact absurd (by rw [hin]; rfl) hr
  cases hc with
  | task ht => exact .inl (by rw [ht])
  | start _ hu hst =>
    obtain ⟨hf, -⟩ := (h.withInputs l).idle_of_not_updating hu
    exact .inr (.inl ⟨hf, by rw [hst.frame]; show withUpdating s.opFlags = _; rw [show s.opFlags = _ from hf]; rfl⟩)
  | event e _ _ hev =>
    rcases hev.opFlags_cases with hf | hf | hf | hf
    · exact .inl hf
    · exact .inr (.inr (.inl hf))
    · exact .inr (.inr (.inr (.inl hf)))
    · exact .inr (.inr (.inr (.inr hf)))
  | tick ht => exact .inl (by rw [ht.frame])

/-! ### No step stops -/

theorem fetchWord_operation {w : OpWord} {s u : State} {i : Instr} (h : fetchWord w s = .operation i u) : u = s := by
  unfold fetchWord at h
  cases hd : decode w with
  | ok j =>
    simp only [hd, Fetched.operation.injEq] at h
    exact h.2.symm
  | error x => cases x <;> simp [hd] at h

/-- The operation fetched runs in the state at hand, the inputs aside. -/
theorem fetch_operation {s u : State} {i : Instr} (h : fetch s = .operation i u) : ∃ l, u = { s with inputs := l } := by
  unfold fetch at h
  cases hin : s.inputs with
  | nil => simp [hin] at h
  | cons x rest =>
    cases x with
    | reset => simp [hin] at h
    | task => simp [hin] at h
    | irq =>
      cases hp : pendingWord s with
      | none => simp [hin, hp] at h
      | some w => exact ⟨rest, fetchWord_operation (by simpa [hin, hp] using h)⟩
    | port w =>
      by_cases hh : heldBack w s = true
      · simp [hin, hh] at h
      · exact ⟨rest, fetchWord_operation (by simpa [hin, hh] using h)⟩

/-- Only a tick could stop, and under the invariant the entry at the cursor has been written (R38, R191). -/
theorem ClosedInv.exec_answers {s : State} (h : ClosedInv s) (i : Instr) : ∃ t, exec i s = .next t := by
  cases i with
  | rdTick =>
    by_cases he : TickEnabled s
    · obtain ⟨d, hd⟩ := Option.ne_none_iff_exists'.1 (h.written he.2 s.rdPtr h.cursor)
      exact ⟨_, exec_rdTick_of_entry he h.cursor hd⟩
    · exact ⟨s, (tickOffOrStops s).1 he⟩
  | _ => exact ⟨_, rfl⟩

/-- Settles O48: a step is done with the fetch or runs an operation, which answers. -/
theorem closedStepNeverStops : Obligations.ClosedStepNeverStops := by
  intro s h
  rcases step_cases s with ⟨i, u, hfetch, hstep⟩ | ⟨t, -, hstep⟩
  · obtain ⟨l, rfl⟩ := fetch_operation hfetch
    rw [hstep]
    exact (h.withInputs l).exec_answers i
  · exact ⟨t, hstep⟩

end Sys2Proof.Machine
end

section
/-! What a transmission streams (`20_memory.md` R65, `46_stream_port.md` R176 to R178). -/

namespace Sys2Proof.Machine

/-! ### The frame, position by position -/

/-- Runs of equal length `m` put one after the other: position `n` is in run `n / m`. -/
theorem getElem?_flatMap_range {α : Type} {f : Nat → List α} {m k n : Nat} (hf : ∀ i, (f i).length = m)
    (hn : n < m * k) : ((List.range k).flatMap f)[n]? = (f (n / m))[n % m]? := by
  have length (k : Nat) : ((List.range k).flatMap f).length = m * k := by
    simp [List.length_flatMap, hf, Nat.mul_comm]
  induction k with
  | zero => omega
  | succ k ih =>
    rw [List.range_succ, List.flatMap_append]
    by_cases hk : n < m * k
    · rw [List.getElem?_append_left (by rw [length]; exact hk), ih hk]
    · have hm : n = m * k + (n - m * k) := by omega
      have hlt : n - m * k < m := by
        rw [Nat.mul_succ] at hn
        omega
      have hdiv : n / m = k := by
        rw [hm, Nat.mul_add_div (by omega), Nat.div_eq_of_lt hlt, Nat.add_zero]
      have hmod : n % m = n - m * k := by
        conv => lhs; rw [hm]
        rw [Nat.mul_add_mod, Nat.mod_eq_of_lt hlt]
      rw [List.getElem?_append_right (by rw [length]; omega), length, hdiv, hmod, List.flatMap_singleton]

theorem length_frame (c : Config) (x : Nat → Colour) : (frame c x).length = 24 * c.ledCount := by
  simp [frame, List.length_flatMap, Nat.mul_comm]

section
variable {c : Config} {x : Nat → Colour} {n : Nat}

theorem streamValue_of_lt (hn : n < 24 * c.ledCount) :
    some (streamValue c x n) = (encodePulses c (x (n / 24)))[n % 24]? := by
  have entry : (frame c x)[n]? = (encodePulses c (x (n / 24)))[n % 24]? :=
    getElem?_flatMap_range (f := fun i => encodePulses c (x i)) (fun i => length_encodePulses c (x i)) hn
  rw [streamValue, entry, getElem?_encodePulses c _ (Nat.mod_lt n (by decide))]
  rfl

theorem streamValue_of_ge (hn : 24 * c.ledCount ≤ n) : streamValue c x n = dutyIdle := by
  rw [streamValue, List.getElem?_eq_none (by rw [length_frame]; exact hn)]
  rfl

/-- Everything streamed up to `k` values after the frame (R178). -/
theorem map_streamValue_range (c : Config) (x : Nat → Colour) (k : Nat) :
    (List.range (24 * c.ledCount + k)).map (streamValue c x) = frame c x ++ List.replicate k dutyIdle := by
  have whole : (List.range (24 * c.ledCount)).map (streamValue c x) = frame c x := by
    refine List.ext_getElem (by simp [length_frame]) fun i _ hi => ?_
    simp [streamValue, List.getElem?_eq_getElem hi]
  have idle : (List.range k).map (fun i => streamValue c x (24 * c.ledCount + i)) = List.replicate k dutyIdle := by
    refine List.eq_replicate_iff.2 ⟨by simp, fun d hd => ?_⟩
    obtain ⟨i, -, rfl⟩ := List.mem_map.1 hd
    exact streamValue_of_ge (Nat.le_add_right _ _)
  rw [List.range_add, List.map_append, whole, List.map_map, ← idle]
  rfl

end

/-! ### Stream positions in the ring -/

/-- How many values the transmission has put out, by the events raised and the cursor (R177). -/
def streamPosition (s : State) : Nat := eventsRaised s * s.cfg.halfLen + s.rdPtr % s.cfg.halfLen

/-- Position `k × HALF_LEN + j` stands in the first half of the ring if `k` is even, and in the second if not (R136). -/
theorem half_position_mod {c : Config} {j : Nat} (k : Nat) (hj : j < c.halfLen) :
    (k * c.halfLen + j) % c.bufLen = (if k % 2 = 0 then 0 else c.halfLen) + j := by
  rw [Config.bufLen_eq_two_halves, batch_mod k hj]

section
variable {s t : State} (h : ClosedInv s)
include h

theorem ClosedInv.halfLen_pos : 0 < s.cfg.halfLen := by
  have := h.cursor
  rw [Config.bufLen_eq_two_halves] at this
  omega

/-- The next value to put out is the one at the cursor. -/
theorem ClosedInv.streamPosition_mod (hf : s.fault = false) (hd : s.dmaRun = true) :
    streamPosition s % s.cfg.bufLen = s.rdPtr := by
  obtain ⟨side, -, -⟩ := h.phase hf hd
  have cursor := h.cursor
  rw [Config.bufLen_eq_two_halves] at cursor
  rw [streamPosition, half_position_mod _ (Nat.mod_lt _ h.halfLen_pos)]
  by_cases first : s.rdPtr < s.cfg.halfLen
  · rw [if_pos (side.1 first), Nat.mod_eq_of_lt first, Nat.zero_add]
  · rw [if_neg (mt side.2 first), Nat.mod_eq_sub_mod (by omega), Nat.mod_eq_of_lt (by omega)]
    omega

/-- While event number `h` is pending, the cursor is in the half that stream positions from `(h + 1) × HALF_LEN` on stand in. -/
theorem ClosedInv.cursor_side {e : Event} (hf : s.fault = false) (he : s.evtPend = some e) :
    s.rdPtr < s.cfg.halfLen ↔ eventsHandled s % 2 = 1 := by
  obtain ⟨-, hd⟩ := h.busy_of_pending he
  obtain ⟨side, -, -⟩ := h.phase hf hd
  rw [eventsRaised_of_some he] at side
  omega

/-- The pending event vacates the half that the cursor is not in (R155). -/
theorem ClosedInv.vacated_side {e : Event} (hf : s.fault = false) (he : s.evtPend = some e) :
    (e = .ht ∧ eventsHandled s % 2 = 0) ∨ (e = .tc ∧ eventsHandled s % 2 = 1) := by
  obtain ⟨-, hd⟩ := h.busy_of_pending he
  obtain ⟨-, ht, tc⟩ := h.phase hf hd
  cases e with
  | ht => exact .inl ⟨rfl, ht he⟩
  | tc => exact .inr ⟨rfl, tc he⟩

/-- The batch that an event refills goes to the half given by the events handled (R136). -/
theorem ClosedInv.prog_mod {i : Nat} (hb : Busy s) (hr : s.rstCnt = 0) (hi : i < s.cfg.batch) :
    (s.prog + i) % (2 * s.cfg.batch) = (if eventsHandled s % 2 = 0 then 0 else s.cfg.batch) + i := by
  have count : (eventsHandled s + 2) * s.cfg.batch = s.prog := by
    rw [hb.handled_mul h.transmits h.progMultiple, hr, Nat.zero_mul, Nat.add_zero]
  rw [← count, batch_mod _ hi, Nat.add_mod_right]

/-- The double-buffering invariant (R62): what an event writes is in the half that the cursor is not in. -/
theorem ClosedInv.bufAt_cursor_side {e : Event} {p : Nat} (hf : s.fault = false) (he : s.evtPend = some e)
    (hev : BusyEvent e s t) (hp : p < s.cfg.halfLen ↔ s.rdPtr < s.cfg.halfLen) : t.mem.bufAt p = s.mem.bufAt p := by
  rw [h.cursor_side hf he] at hp
  cases hev with
  | batch _ _ hr _ outside _ =>
    refine outside p fun i hi => ?_
    rw [inLedRun_iff, h.prog_mod (h.busy_of_pending he).1 hr hi]
    rw [Config.halfLen_eq] at hp
    split <;> omega
  | gap _ _ _ hbuf _ =>
    refine (hbuf p).trans (if_neg ?_)
    rcases h.vacated_side hf he with ⟨rfl, even⟩ | ⟨rfl, odd⟩
    · rintro (⟨-, hlt⟩ | ⟨htc, -⟩)
      · omega
      · cases htc
    · rintro (⟨hht, -⟩ | ⟨-, hge, -⟩)
      · cases hht
      · omega
  | stop _ _ _ ht => rw [ht]

end

/-- Settles O50: the event answers, and what it writes is on the other side. -/
theorem handlerNeverWritesHalfBeingRead : Obligations.HandlerNeverWritesHalfBeingRead := by
  intro s e h hf he
  obtain ⟨t, hx, hev⟩ := h.exec_event hf he
  exact ⟨t, hx, fun p hp => h.bufAt_cursor_side hf he hev hp⟩

end Sys2Proof.Machine
end

section
/-! Every step of a transmission keeps streaming the frame of its colours, and what its trace is at the stop (R65, R177, R178). -/

namespace Sys2Proof.Machine

section
variable {x : Nat → Colour} {s t : State}

theorem StreamsFrame.length_trace (hs : StreamsFrame x s) (hd : s.dmaRun = true) (hf : s.fault = false) :
    s.trace.length = streamPosition s := by
  rw [hs.traced hd hf, List.length_map, List.length_range, streamPosition]

theorem StreamsFrame.of_task (hs : StreamsFrame x s) (ht : TaskOnly s t)
    (ahead : ∀ i, t.prog ≤ i → i < t.cfg.ledCount → t.mem.colorAt i = x i) : StreamsFrame x t := by
  rw [ht] at ahead ⊢
  exact { ahead := ahead, traced := hs.traced, buffered := hs.buffered }

section
variable (h : ClosedInv s)
include h

/-- A transmission that has just started holds the beginning of the frame in the whole buffer. -/
theorem StreamsFrame.of_start (hs : StreamsFrame x s) (hu : updatingBit s.opFlags = false)
    (hst : Started s t) : StreamsFrame x t := by
  obtain ⟨entries, -, ht⟩ := hst
  obtain ⟨hB, -, h3, -⟩ := s.cfg.transmits_bounds h.transmits
  obtain ⟨-, hp, hr, hn⟩ := h.idle_of_not_updating hu
  have hcfg : t.cfg = s.cfg := by rw [ht]
  have handled : eventsHandled t = 0 :=
    eventsHandled_of_start (by rw [hcfg]; exact hB) (by rw [ht]) (by rw [ht]; exact hr)
  have raised : eventsRaised t = 0 := (eventsRaised_of_none (by rw [ht]; exact hn)).trans handled
  have trace : t.trace = [] := by rw [ht]
  have cursor : t.rdPtr = 0 := by rw [ht]
  have colours : ∀ i, t.mem.colorAt i = s.mem.colorAt i := fun i => by rw [ht]; rfl
  refine ⟨fun i _ hi => ?_, fun _ _ => ?_, fun _ _ n _ hn => ?_⟩
  · rw [colours]
    exact hs.ahead i (by omega) (by rwa [hcfg] at hi)
  · rw [trace, raised, cursor, Nat.zero_mul, Nat.zero_mod]
    rfl
  · rw [handled, hcfg, Nat.zero_add, ← Config.bufLen_eq_two_halves] at hn
    rw [hcfg, Nat.mod_eq_of_lt hn]
    rw [Config.bufLen_eq] at hn
    have entry := entries (n / 24) (by omega) (n % 24) (Nat.mod_lt n (by decide))
    rw [Nat.div_add_mod, hs.ahead (n / 24) (by omega) (by omega)] at entry
    rw [entry, streamValue_of_lt (by omega)]

/-- What an event writes is what comes next in the stream: a batch of the frame, or the idle level after it. -/
theorem StreamsFrame.bufAt_next (hs : StreamsFrame x s) {e : Event} (hf : s.fault = false) (he : s.evtPend = some e)
    (hev : BusyEvent e s t) (hstop : s.opFlags ≠ flagsStopping) {n : Nat}
    (hl : (eventsHandled s + 2) * s.cfg.halfLen ≤ n) (hu : n < (eventsHandled s + 3) * s.cfg.halfLen) :
    t.mem.bufAt (n % s.cfg.bufLen) = some (streamValue s.cfg x n) := by
  have count := (h.busy_of_pending he).1.handled_mul h.transmits h.progMultiple
  have half : (eventsHandled s + 2) * s.cfg.halfLen = 24 * (s.prog + s.rstCnt * s.cfg.batch) := by
    rw [← count, Config.halfLen_eq]
    ring
  rw [show eventsHandled s + 3 = eventsHandled s + 2 + 1 from rfl, Nat.succ_mul, half] at hu
  have position := half_position_mod (c := s.cfg) (j := n - (eventsHandled s + 2) * s.cfg.halfLen)
    (eventsHandled s + 2) (by omega)
  rw [Nat.add_sub_cancel' hl, Nat.add_mod_right] at position
  rw [half] at hl
  cases hev with
  | batch _ hle hr holds _ _ =>
    rw [hr, Nat.zero_mul, Nat.add_zero] at hl hu
    rw [Config.halfLen_eq] at hu
    have hled : s.prog + (n / 24 - s.prog) = n / 24 := by omega
    have entry := holds (n / 24 - s.prog) (by omega) (n % 24) (Nat.mod_lt n (by decide))
    rw [hled, wrPos_add_mod, hs.ahead (n / 24) (by omega) (by omega)] at entry
    rw [entry, streamValue_of_lt (by omega)]
  | gap _ hp _ hbuf _ =>
    have L := s.cfg.bufLen_eq_two_halves
    rw [hbuf, if_pos, streamValue_of_ge (by rw [← hp]; omega)]
    rw [position, half]
    rcases h.vacated_side hf he with ⟨rfl, even⟩ | ⟨rfl, odd⟩
    · exact .inl ⟨rfl, by rw [if_pos even]; omega⟩
    · exact .inr ⟨rfl, by rw [if_neg (by omega)]; omega⟩
  | stop hf' => exact absurd hf' hstop

/-- What is left of the buffer's content stands on the cursor's side, and no event writes there. -/
theorem StreamsFrame.of_event (hs : StreamsFrame x s) {e : Event} (hf : s.fault = false) (he : s.evtPend = some e)
    (hev : BusyEvent e s t) (ahead : ∀ i, t.prog ≤ i → i < t.cfg.ledCount → t.mem.colorAt i = x i) :
    StreamsFrame x t := by
  obtain ⟨busy, running⟩ := h.busy_of_pending he
  by_cases hstop : s.opFlags = flagsStopping
  · have stopped : t.dmaRun = false := by rw [hev.eq_of_stopping hstop]
    exact ⟨ahead, fun hd => absurd (stopped.symm.trans hd) nofun, fun hd => absurd (stopped.symm.trans hd) nofun⟩
  obtain ⟨-, -, count⟩ := hev.next h.transmits h.progMultiple busy hstop
  have ht := hev.frame
  rw [h.latchAfter_eq] at ht
  have hcfg : t.cfg = s.cfg := by rw [ht]
  have hpend : t.evtPend = none := by rw [ht]
  have hrd : t.rdPtr = s.rdPtr := by rw [ht]
  have htrace : t.trace = s.trace := by rw [ht]
  have raised : eventsRaised t = eventsRaised s := by
    rw [eventsRaised_of_none hpend, count, eventsRaised_of_some he]
  refine ⟨ahead, fun _ _ => ?_, fun _ _ n hl hu => ?_⟩
  · rw [htrace, raised, hrd, hcfg]
    exact hs.traced running hf
  · rw [hcfg, count] at hu
    rw [htrace] at hl
    rw [hcfg]
    by_cases hold : n < (eventsHandled s + 2) * s.cfg.halfLen
    · rw [h.bufAt_cursor_side hf he hev ?_]
      · exact hs.buffered running hf n hl hold
      · rw [hs.length_trace running hf, streamPosition, eventsRaised_of_some he] at hl
        rw [show eventsHandled s + 2 = eventsHandled s + 1 + 1 from rfl, Nat.succ_mul] at hold
        have hn : n = (eventsHandled s + 1) * s.cfg.halfLen + (n - (eventsHandled s + 1) * s.cfg.halfLen) := by omega
        rw [h.cursor_side hf he, hn, half_position_mod _ (by omega)]
        split <;> omega
    · exact hs.bufAt_next h hf he hev hstop (Nat.not_lt.1 hold) hu

/-- A tick puts out the value of the stream's next position. -/
theorem StreamsFrame.entry_at_cursor (hs : StreamsFrame x s) {d : Duty} (hf : s.fault = false) (hr : s.dmaRun = true)
    (hd : s.mem.bufAt s.rdPtr = some d) : d = streamValue s.cfg x (streamPosition s) := by
  have hlt := Nat.mod_lt s.rdPtr h.halfLen_pos
  have raised : eventsRaised s ≤ eventsHandled s + 1 := by
    unfold eventsRaised
    split <;> omega
  have room : streamPosition s < (eventsHandled s + 2) * s.cfg.halfLen := by
    have := Nat.mul_le_mul_right s.cfg.halfLen raised
    rw [show eventsHandled s + 2 = eventsHandled s + 1 + 1 from rfl, Nat.succ_mul, streamPosition]
    omega
  have entry := hs.buffered hr hf _ (hs.length_trace hr hf).le room
  rw [h.streamPosition_mod hf hr, hd] at entry
  exact Option.some.inj entry

/-- A tick that moves the stream on by one position. -/
theorem StreamsFrame.of_output (hs : StreamsFrame x s) {d : Duty} (hf : s.fault = false) (hr : s.dmaRun = true)
    (hd : s.mem.bufAt s.rdPtr = some d) {p : Option Event} {u : State} (hu : u = { streamOut d s with evtPend := p })
    (hp : streamPosition u = streamPosition s + 1) : StreamsFrame x u := by
  have trace : u.trace = s.trace ++ [d] := by rw [hu]; rfl
  have hcfg : u.cfg = s.cfg := by rw [hu]; rfl
  refine ⟨by rw [hu]; exact hs.ahead, fun _ _ => ?_, fun _ _ n hl hn => ?_⟩
  · show u.trace = (List.range (streamPosition u)).map (streamValue u.cfg x)
    rw [hp, List.range_succ, List.map_append, hcfg, trace, hs.traced hr hf, hs.entry_at_cursor h hf hr hd]
    rfl
  · rw [trace, List.length_append] at hl
    rw [hu] at hn ⊢
    exact hs.buffered hr hf n (Nat.le_of_succ_le hl) hn

/-- Within a half the cursor and the stream move on together (R175). -/
theorem ClosedInv.streamPosition_quiet {d : Duty}
    (hq : (streamOut d s).rdPtr ≠ s.cfg.halfLen ∧ (streamOut d s).rdPtr ≠ 0) :
    streamPosition (streamOut d s) = streamPosition s + 1 := by
  have cursor := h.cursor
  have L := s.cfg.bufLen_eq_two_halves
  rw [streamOut_rdPtr, cursor_advance cursor] at hq
  have inside : s.rdPtr + 1 ≠ s.cfg.bufLen := fun hL => hq.2 (if_pos hL)
  rw [if_neg inside] at hq
  have next : (streamOut d s).rdPtr = s.rdPtr + 1 := (cursor_advance cursor).trans (if_neg inside)
  have offset : (s.rdPtr + 1) % s.cfg.halfLen = s.rdPtr % s.cfg.halfLen + 1 := by
    by_cases first : s.rdPtr < s.cfg.halfLen
    · rw [Nat.mod_eq_of_lt (by omega), Nat.mod_eq_of_lt first]
    · rw [Nat.mod_eq_sub_mod (by omega), Nat.mod_eq_of_lt (by omega), Nat.mod_eq_sub_mod (by omega),
        Nat.mod_eq_of_lt (by omega)]
      omega
  show eventsRaised s * s.cfg.halfLen + (streamOut d s).rdPtr % s.cfg.halfLen = _
  rw [next, offset]
  rfl

/-- At a boundary the event raised counts the half just read (R177). -/
theorem ClosedInv.streamPosition_raised {d : Duty} {e : Event} (hn : s.evtPend = none)
    (hq : (streamOut d s).rdPtr = s.cfg.halfLen ∨ (streamOut d s).rdPtr = 0) :
    streamPosition { streamOut d s with evtPend := some e } = streamPosition s + 1 := by
  have cursor := h.cursor
  have L := s.cfg.bufLen_eq_two_halves
  have raised : eventsRaised { streamOut d s with evtPend := some e } = eventsRaised s + 1 := by
    rw [eventsRaised_of_none hn]
    exact eventsRaised_of_some rfl
  have start : (streamOut d s).rdPtr % s.cfg.halfLen = 0 := by
    rcases hq with hq | hq <;> rw [hq]
    · exact Nat.mod_self _
    · exact Nat.zero_mod _
  have last : s.rdPtr % s.cfg.halfLen + 1 = s.cfg.halfLen := by
    rw [streamOut_rdPtr, cursor_advance cursor] at hq
    by_cases first : s.rdPtr < s.cfg.halfLen
    · rw [Nat.mod_eq_of_lt first]
      split at hq <;> omega
    · rw [Nat.mod_eq_sub_mod (by omega), Nat.mod_eq_of_lt (by omega)]
      split at hq <;> omega
  show eventsRaised { streamOut d s with evtPend := some e } * s.cfg.halfLen + (streamOut d s).rdPtr % s.cfg.halfLen = _
  rw [raised, start, Nat.succ_mul, streamPosition]
  omega

theorem StreamsFrame.of_tick (hs : StreamsFrame x s) (ht : TickCase s t) : StreamsFrame x t := by
  cases ht with
  | notEnabled _ ht => exact ht ▸ hs
  | quiet d he _ hd hq ht =>
    cases hf : s.fault with
    | true =>
      have faulted : t.fault = true := by rw [ht]; exact hf
      exact ⟨by rw [ht]; exact hs.ahead, fun _ hf' => absurd (faulted.symm.trans hf') nofun,
        fun _ hf' => absurd (faulted.symm.trans hf') nofun⟩
    | false =>
      have inside := hq.resolve_left fun hf' => absurd (hf.symm.trans hf') nofun
      exact hs.of_output h hf he.2 hd (p := s.evtPend) ht (by rw [ht]; exact h.streamPosition_quiet inside)
  | raised d e he _ hd hf hn hq ht =>
    have boundary : (streamOut d s).rdPtr = s.cfg.halfLen ∨ (streamOut d s).rdPtr = 0 :=
      hq.imp (fun hq => hq.2) fun hq => hq.2
    exact hs.of_output h hf he.2 hd ht (by rw [ht]; exact h.streamPosition_raised hn boundary)
  | overrun d _ _ _ _ _ ht =>
    have faulted : t.fault = true := by rw [ht]; rfl
    exact ⟨by rw [ht]; exact hs.ahead, fun _ hf' => absurd (faulted.symm.trans hf') nofun,
      fun _ hf' => absurd (faulted.symm.trans hf') nofun⟩

end

end

/-- Settles O51: after a reset nothing streams, and each kind of operation keeps the trace and the buffer in step. -/
theorem stepKeepsStreamingFrame : Obligations.StepKeepsStreamingFrame := by
  intro x s t h hs hx ahead
  rcases h.step_cases hx with ⟨rest, -, rfl⟩ | ⟨l, hc⟩
  · exact ⟨ahead, nofun, nofun⟩
  have h := h.withInputs l
  have hs : StreamsFrame x { s with inputs := l } := { hs with }
  cases hc with
  | task ht => exact hs.of_task ht ahead
  | start _ hu hst => exact hs.of_start h hu hst
  | event e hf he hev => exact hs.of_event h hf he hev ahead
  | tick ht => exact hs.of_tick h ht

/-- In STOPPING the whole frame and `T - 1` idle intervals have been put out, and what the cursor has read of the next (R178, R229). -/
theorem streamPosition_of_stopping {s : State} {e : Event} (h : ClosedInv s) (hf : s.opFlags = flagsStopping)
    (he : s.evtPend = some e) :
    streamPosition s =
      24 * s.cfg.ledCount + ((s.cfg.resetIrqThreshold - 1) * s.cfg.halfLen + s.rdPtr % s.cfg.halfLen) := by
  obtain ⟨-, -, -, hT⟩ := s.cfg.transmits_bounds h.transmits
  obtain ⟨busy, -⟩ := h.busy_of_pending he
  obtain ⟨hp, hr⟩ : s.prog = s.cfg.ledCount ∧ s.rstCnt = s.cfg.resetIrqThreshold := by
    rcases busy with ⟨hf', -⟩ | ⟨hf', -⟩ | ⟨-, hp, hr⟩
    · exact absurd (hf.symm.trans hf') (by decide)
    · exact absurd (hf.symm.trans hf') (by decide)
    · exact ⟨hp, hr⟩
  have count := busy.handled_mul h.transmits h.progMultiple
  obtain ⟨T, hT⟩ : ∃ T, s.cfg.resetIrqThreshold = T + 1 := ⟨_, (Nat.sub_add_cancel hT).symm⟩
  rw [hp, hr, hT] at count
  have whole : (eventsHandled s + 1) * s.cfg.batch = s.cfg.ledCount + T * s.cfg.batch := by
    rw [show eventsHandled s + 2 = eventsHandled s + 1 + 1 from rfl, Nat.succ_mul, Nat.succ_mul T] at count
    omega
  have values : (eventsHandled s + 1) * s.cfg.halfLen = 24 * s.cfg.ledCount + T * s.cfg.halfLen := by
    rw [Config.halfLen_eq, Nat.mul_left_comm, whole]
    ring
  rw [streamPosition, eventsRaised_of_some he, values, hT, Nat.add_sub_cancel, Nat.add_assoc]

/-- Settles O52: the stop leaves the trace as it is. -/
theorem traceAtStopIsFrameAndGap : Obligations.TraceAtStopIsFrameAndGap := by
  intro x s e h hs hf hstop he
  obtain ⟨-, running⟩ := h.busy_of_pending he
  have stop : dmaStopBit s.opFlags = true := by rw [hstop]; rfl
  refine ⟨_, stopCaseEndsTransmission e s ⟨hf, .inr he⟩ stop, ?_, rfl, rfl, rfl⟩
  have trace : s.trace = (List.range (streamPosition s)).map (streamValue s.cfg x) := hs.traced running hf
  rw [streamPosition_of_stopping h hstop he, map_streamValue_range] at trace
  exact trace

end Sys2Proof.Machine
end
